-- ==== Sys2Proof/Word.lean ====
section
/-!
DEFINITION. The word type of the block and the one conversion every register view needs.
Every host-visible register is 32 bits wide (spec/00_scope.md R9); bit 0 is the least significant bit (R10).
-/
namespace Sys2Proof

/-- A 32-bit register value (R9). Packed states, seeds and tap masks are words whose bits at and above
the width in force are 0 (R11). -/
abbrev Word := BitVec 32

/-- `zext_32` of a one-bit value (R12). -/
def bitWord (b : Bool) : Word := BitVec.setWidth 32 (BitVec.ofBool b)

end Sys2Proof
end

