-- ==== Sys2Proof/Syntax.lean ====
section
/-!
DEFINITION. The commands of the block: one constructor per row of spec/opcode_table.json (spec/30_encoding.md R102).
-/
namespace Sys2Proof

/-- The seven commands (R3, R102). A command carries no immediate and no register field (R105), so no
constructor has an argument. -/
inductive Instr where
  /-- R125: completes with OK, nothing else. -/
  | nop
  /-- R145: `construct(seed, taps)`, loads the live engine. -/
  | load
  /-- R146: `shift()`, one clock of the live engine. -/
  | shift
  /-- R165: `isPrimitivePolynomial(m, taps)` on the test engine. -/
  | check
  /-- R183: `findPrimitiveTaps(m)` on the test engine. -/
  | search
  /-- R200: `generateKeyStream(lfsr)` on the live engine. -/
  | genks
  /-- R126: cooperative cancellation. -/
  | cancel
  deriving DecidableEq, Repr

end Sys2Proof
end

