-- ==== Sys2Proof/Decode.lean ====
section
/-!
DEFINITION. Decoding a command word, total on all 2^32 words (spec/30_encoding.md R100 to R104), and the encoder.
A command is one 32-bit word moved whole, so there is no byte order to decide (spec/20_memory.md R75, R101).
-/
namespace Sys2Proof

/-- Why a word spells no command (R103, R104). The machine treats both alike (DESIGN CHOICE, safe: assumption
log 8). -/
inductive Illegal where
  /-- `w[31:4] ≠ 0`: the reserved field RSV is not zero. -/
  | reservedField
  /-- `w[31:4] = 0` and `w[3:0]` is one of 0x7 to 0xF. -/
  | reservedOpcode
  deriving DecidableEq, Repr

/-- What a word decodes to (R103). -/
inductive Decoded where
  | command (i : Instr)
  | illegal (why : Illegal)
  deriving DecidableEq, Repr

/-- The field OP, bits 3:0 (R100). -/
def opField (w : Word) : BitVec 4 := w.extractLsb' 0 4

/-- The field RSV, bits 31:4 (R100). -/
def rsvField (w : Word) : BitVec 28 := w.extractLsb' 4 28

/-- The opcode map of R102, on the field OP alone. -/
def decodeOp (op : BitVec 4) : Decoded :=
  match op.toNat with
  | 0 => .command .nop
  | 1 => .command .load
  | 2 => .command .shift
  | 3 => .command .check
  | 4 => .command .search
  | 5 => .command .genks
  | 6 => .command .cancel
  | _ => .illegal .reservedOpcode

/-- `decode(w)` of R103. A legal OP under a nonzero RSV is illegal (R104). -/
def decode (w : Word) : Decoded :=
  if rsvField w = 0#28 then decodeOp (opField w) else .illegal .reservedField

/-- The exact word of each command (R102). -/
def encode (i : Instr) : Word :=
  match i with
  | .nop => 0x00000000#32
  | .load => 0x00000001#32
  | .shift => 0x00000002#32
  | .check => 0x00000003#32
  | .search => 0x00000004#32
  | .genks => 0x00000005#32
  | .cancel => 0x00000006#32

/-- The command word that a row of the opcode table with `nbits` bits and value `w` stands for; every bit
above `nbits` is 0. -/
def tableWord (nbits w : Nat) : Word := BitVec.ofNat 32 (w % 2 ^ nbits)

/-- The command the decoder reads from a table word. Every command is one 32-bit word (R101), so a longer
row is none. -/
def decodeTableWord (nbits w : Nat) : Option Instr :=
  if nbits ≤ 32 then
    match decode (tableWord nbits w) with
    | .command i => some i
    | .illegal _ => none
  else none

end Sys2Proof
end

