-- ==== Sys2Proof/Config.lean ====
section
/-!
DEFINITION. What one implementation fixes: the largest register width MMAX (spec/00_scope.md R6, 92 D2).
-/
namespace Sys2Proof.Config

/-- How far MMAX lies above its least legal value 2. It has no body: R6 leaves MMAX open between 2 and 30,
so nothing may be proved of it beyond its range (DESIGN CHOICE, safe: assumption log 1). -/
opaque mmaxAboveTwo : Fin 29

/-- `MMAX`, the largest register width of this block: an open parameter with `2 ≤ MMAX ≤ 30` (R6).
`State.reset` puts it into the state field that PARAM reports (R47), where every claim quantifies over it. -/
def mmax : Nat := 2 + mmaxAboveTwo.val

end Sys2Proof.Config
end

