-- ==== Sys2Proof/Machine/State.lean ====
section
/-!
DEFINITION. The state of the block (spec/10_state.md R20 to R31), of its host port (spec/20_memory.md R79, R84),
the reasons a step can stop, and the state after reset (R60).
-/
namespace Sys2Proof.Machine

/-- An indexed store of `w`-bit entries as (index, entry) pairs in one canonical form (`Memory.wf`, in Ops):
indexes strictly rising, no entry equal to what an unlisted index reads as (DESIGN CHOICE, safe: assumption log 13). The three stores of the block
(KSBUF, SEEN_VALID, SEEN_IDX) are indexed, not byte-addressed (R70, R77). -/
abbrev Memory (w : Nat) := List (Nat × BitVec w)

/-- One engine (R20): its width `X.m`, its packed register state `X.r`, its packed tap mask `X.t`. The MMAX-bit
fields stand in 32-bit words (DESIGN CHOICE, safe: assumption log 6). -/
structure Engine where
  m : Nat
  r : Word
  t : Word
  deriving DecidableEq, Repr

/-- The sequencer's state `OP` (R24). -/
inductive Op where
  | idle
  | check
  | search
  | genks
  deriving DecidableEq, Repr

/-- The completion codes of STATUS.ERR (spec/60_exceptions.md R300). Codes 6 and 7 are never produced. -/
inductive ErrCode where
  | ok
  | invalidConfig
  | degenerateKeystream
  | illegalCommand
  | notLoaded
  | cancelled
  deriving DecidableEq, Repr

/-- The detector (R26): the seen-state table, its size, the clock count CYCLE, the cap NCAP, and how the
run ended. -/
structure Detector where
  seenValid : Memory 1
  seenIdx : Memory 32
  seenCount : Word
  cycle : Word
  ncap : Word
  repeated : Bool
  repeatFirst : Word
  ones : Bool
  deriving DecidableEq, Repr

/-- The search harness (R28). -/
structure Harness where
  searchI : Word
  resultTaps : Word
  verified : Bool
  fallback : Bool
  deriving DecidableEq, Repr

/-- The configuration registers, 32 bits each (R29). -/
structure ConfigRegs where
  width : Word
  seed : Word
  taps : Word
  ksaddr : Word
  deriving DecidableEq, Repr

/-- The keystream buffer KSBUF and its valid length KSLEN (R30). -/
structure Keystream where
  buf : Memory 1
  len : Word
  deriving DecidableEq, Repr

/-- One record of the trace port (spec/44_keystream.md R206). -/
structure TraceRec where
  k : Word
  s : Word
  fb : Bool
  out : Bool
  deriving DecidableEq, Repr

/-- A host access reads or writes (spec/20_memory.md R72, R73). -/
inductive AccessKind where
  | read
  | write (v : Word)
  deriving DecidableEq, Repr

/-- A host access: how many bits it moves, at which byte offset of the window, and what it does. Widths and
offsets that R74 refuses can be written here; the machine refuses them. -/
structure Access where
  bits : Nat
  off : Nat
  kind : AccessKind
  deriving DecidableEq, Repr

/-- One event of the total order of R79, or a host-side pseudo-instruction of R107. -/
inductive Event where
  /-- A host access (R72, R73). -/
  | access (a : Access)
  /-- The block's turn: it takes one busy step if it is busy (R127). -/
  | busy
  /-- The host's `wait` (R107): it polls STATUS until BUSY reads 0 while the block takes busy steps. -/
  | wait
  /-- Reset is asserted (R400). -/
  | reset
  deriving DecidableEq, Repr

/-- The whole state: everything R20 to R31 give the block, the constant MMAX behind PARAM (R47), the records
the trace port has emitted (R31), and the host's side of the port: the events still to come in the total
order of R79, and the values its reads have returned so far (oldest first). -/
structure State where
  /-- MMAX (R6), reported by PARAM; no rule writes it. -/
  mmax : Nat
  /-- The live engine E. -/
  live : Engine
  /-- The test engine T. -/
  test : Engine
  /-- LOADED (R22). -/
  loaded : Bool
  /-- LAST_OUT (R23). -/
  lastOut : Bool
  /-- LAST_FB (R23). -/
  lastFb : Bool
  /-- OP (R24). -/
  op : Op
  /-- DONE (R25). -/
  doneBit : Bool
  /-- ERR (R25, R300). -/
  err : ErrCode
  /-- REJECTED (R25). -/
  rejected : Bool
  det : Detector
  /-- PRIMITIVE (R27). -/
  primitive : Bool
  search : Harness
  conf : ConfigRegs
  ks : Keystream
  /-- The trace port's records, oldest first (R31, R206; the host takes every one, unsafe: assumption log 12). -/
  traced : List TraceRec
  /-- The events still to come, next first (R79; DESIGN CHOICE, safe: assumption log 2). -/
  events : List Event
  /-- What the host's reads returned: offset and value, oldest first (DESIGN CHOICE, safe: assumption
  log 4). -/
  reads : List (Nat × Word)
  deriving DecidableEq, Repr

/-- Reasons a step can stop with a fault. There is none: the block has no traps and no error is fatal
(spec/60_exceptions.md R304; DEDUCED, safe: assumption log 9). -/
inductive Fault where
  deriving DecidableEq, Repr

/-- Reasons a step has no meaning. -/
inductive Refusal where
  /-- Raised by `exec` for a command that has no meaning yet; no arm uses it in this model. Safe. -/
  | notModelled (mnemonic : String)
  /-- Raised by the host port for an access whose width is not 32 bits (R74: it is refused). Safe: no claim
  covers a host that issues one. -/
  | accessWidth (bits : Nat)
  /-- Raised by the host port for a 32-bit access at an offset at or above 0x100 (R74). Safe. -/
  | accessOutsideWindow (off : Nat)
  /-- Raised by the host port for a 32-bit access inside the window at an offset that is no multiple of 4
  (R74). Safe. -/
  | accessMisaligned (off : Nat)
  deriving DecidableEq, Repr

/-- What a step of this machine answers. -/
abbrev Answer := Host.Outcome State Fault Refusal

/-- An engine after reset (R60). -/
def Engine.reset : Engine := { m := 0, r := 0#32, t := 0#32 }

/-- The detector after reset (R60). The table's contents are unspecified there and never observable; R61 lets
a model hold them as zeros, and this one does (DESIGN CHOICE, unsafe: assumption log 3). -/
def Detector.reset : Detector :=
  { seenValid := [], seenIdx := [], seenCount := 0#32, cycle := 0#32, ncap := 0#32,
    repeated := false, repeatFirst := 0#32, ones := false }

/-- The state after reset of a block built with the given MMAX (R60), with no event waiting and no record
emitted. -/
def State.resetAt (mmax : Nat) : State :=
  { mmax := mmax
    live := Engine.reset
    test := Engine.reset
    loaded := false
    lastOut := false
    lastFb := false
    op := .idle
    doneBit := false
    err := .ok
    rejected := false
    det := Detector.reset
    primitive := false
    search := { searchI := 0#32, resultTaps := 0#32, verified := false, fallback := false }
    conf := { width := 0#32, seed := 0#32, taps := 0#32, ksaddr := 0#32 }
    ks := { buf := [], len := 0#32 }
    traced := []
    events := []
    reads := [] }

/-- The machine right after reset (R60, R401): every register 0 or IDLE, MMAX the open parameter, no host
event waiting. -/
def State.reset : State := State.resetAt Config.mmax

end Sys2Proof.Machine
end

