-- ==== Sys2Proof/Machine/Ops.lean ====
section
/-!
DEFINITION. The shared operations: the indexed stores, the engine clock (spec/41_engine.md R140 to R142), the
command lifecycle (spec/40_control.md R120 to R124) and the detector (spec/42_detector.md R160 to R162).
The block takes no exception (spec/60_exceptions.md R304): an error is a completion code, written by `complete`.
-/
namespace Sys2Proof.Machine

/-! ## Indexed stores -/

/-- What an index nothing has written reads as: all bits 0 (DESIGN CHOICE, unsafe: assumption log 3). -/
def Memory.blank {w : Nat} : BitVec w := 0#w

/-- The entry at an index. -/
def Memory.read {w : Nat} : Memory w → Nat → BitVec w
  | [], _ => Memory.blank
  | (k, v) :: rest, a => if k = a then v else Memory.read rest a

/-- Listing a value at an index: before the first higher index, in place of an older listing. -/
def Memory.list {w : Nat} : Memory w → Nat → BitVec w → Memory w
  | [], a, v => [(a, v)]
  | (k, u) :: rest, a, v =>
    if a < k then (a, v) :: (k, u) :: rest
    else if a = k then (a, v) :: rest
    else (k, u) :: Memory.list rest a v

/-- Writing an entry, keeping the canonical form: a blank value removes the listing. -/
def Memory.write {w : Nat} (m : Memory w) (a : Nat) (v : BitVec w) : Memory w :=
  if v = Memory.blank then m.filter (fun c => c.1 != a) else Memory.list m a v

/-- The canonical form: indexes strictly rising, no listed entry blank. -/
def Memory.wf {w : Nat} : Memory w → Bool
  | [] => true
  | (k, v) :: rest => v != Memory.blank && rest.all (fun c => decide (k < c.1)) && Memory.wf rest

/-! ## Words -/

/-- `mask(m) = 2^m - 1` (R12). -/
def mask (m : Nat) : Word := BitVec.ofNat 32 (2 ^ m - 1)

/-- The XOR of the bits of `v` below `n`. -/
def parityBelow (v : Word) : Nat → Bool
  | 0 => false
  | n + 1 => xor (parityBelow v n) (v.getLsbD n)

/-- `parity(v)`: 1 iff `v` has an odd number of 1 bits (R12). -/
def parity (v : Word) : Bool := parityBelow v 32

/-! ## The engine -/

/-- `feedback(X)`: the XOR, over the taps, of the register bits at the tap positions (R140). -/
def feedback (x : Engine) : Bool := parity (x.r &&& x.t)

/-- `output(X) = X.r[X.m - 1]` (R141). -/
def output (x : Engine) : Bool := x.r.getLsbD (x.m - 1)

/-- The state change of `ShiftStep(X)` (R142): only `X.r` changes. The step returns `output x` and `feedback x`,
both of the engine before the shift. -/
def shiftStep (x : Engine) : Engine :=
  { x with r := ((x.r <<< 1) &&& mask x.m) ||| bitWord (feedback x) }

/-! ## The command lifecycle -/

/-- BUSY: `OP ≠ IDLE` (R24). -/
def busy (s : State) : Bool := s.op != .idle

/-- The clearing that acceptance begins with (R121). -/
def accept (s : State) : State := { s with doneBit := false, err := .ok, rejected := false }

/-- `complete(code)` (R124). It does not touch REJECTED. -/
def complete (code : ErrCode) (s : State) : State :=
  { s with err := code, doneBit := true, op := .idle }

/-- `reject()` (R123). -/
def reject (s : State) : State := { s with rejected := true }

/-- A command other than CANCEL, written to CMD (R120): rejected while busy, accepted while idle, and then its
own rule runs in the same atomic effect (R121). -/
def command (rule : State → State) (s : State) : Answer :=
  .next (if busy s then reject s else rule (accept s))

/-! ## The detector -/

/-- Which engine the detector is bound to (R160): T for CHECK and SEARCH, E for GENKS. -/
inductive Bound where
  | live
  | test
  deriving DecidableEq, Repr

/-- The engine a name stands for (R20). -/
def engineOf (b : Bound) (s : State) : Engine :=
  match b with
  | .live => s.live
  | .test => s.test

/-- Replacing the engine a name stands for. -/
def setEngine (b : Bound) (x : Engine) (s : State) : State :=
  match b with
  | .live => { s with live := x }
  | .test => { s with test := x }

/-- What one detector iteration returns (R162). -/
inductive DetResult where
  /-- The cap of `2^m - 1` clocks is reached. -/
  | cap
  /-- The state has been seen before. -/
  | repeated
  /-- One clock was made: its cycle index, the state before it, and its feedback and output bits. -/
  | clocked (k s : Word) (fb out : Bool)
  deriving DecidableEq, Repr

/-- `DetStart(X)` (R161): an empty table, and the cap of an engine of width `m`. SEEN_IDX keeps its entries,
which nothing reads while SEEN_VALID is 0. -/
def detStart (m : Nat) (d : Detector) : Detector :=
  { d with
    seenValid := []
    seenCount := 0#32
    cycle := 0#32
    ncap := BitVec.ofNat 32 (2 ^ m - 1)
    repeated := false
    repeatFirst := 0#32
    ones := false }

/-- SEEN_VALID[s] = 1 (R26). -/
def Detector.hasSeen (d : Detector) (s : Word) : Bool := Memory.read d.seenValid s.toNat == 1#1

/-- Entering state `s` into the table and counting one clock (R162). -/
def Detector.record (d : Detector) (s : Word) : Detector :=
  { d with
    seenValid := Memory.write d.seenValid s.toNat 1#1
    seenIdx := Memory.write d.seenIdx s.toNat d.cycle
    seenCount := d.seenCount + 1#32
    cycle := d.cycle + 1#32 }

/-- Stopping on state `s`, seen before (R162). -/
def Detector.stopOn (d : Detector) (s : Word) : Detector :=
  { d with repeated := true, repeatFirst := Memory.read d.seenIdx s.toNat }

/-- `DetIter(X)` (R162): the cap is tested first, then the table, then at most one clock. -/
def detIter (b : Bound) (s : State) : DetResult × State :=
  if s.det.cycle = s.det.ncap then (.cap, s)
  else if s.det.hasSeen (engineOf b s).r then
    (.repeated, { s with det := s.det.stopOn (engineOf b s).r })
  else
    (.clocked s.det.cycle (engineOf b s).r (feedback (engineOf b s)) (output (engineOf b s)),
      { setEngine b (shiftStep (engineOf b s)) s with det := s.det.record (engineOf b s).r })

/-! ## The host's side of the port -/

/-- The first event has been taken. -/
def popEvent (s : State) : State := { s with events := s.events.tail }

/-- A host write of word `w` to CMD comes next. -/
def placeCommand (w : Word) (s : State) : State :=
  { s with events := .access { bits := 32, off := 0x00, kind := .write w } :: s.events }

end Sys2Proof.Machine
end

