-- ==== Sys2Proof/Machine/Control.lean ====
section
/-!
DEFINITION. The control commands NOP and CANCEL, and an illegal command word (spec/40_control.md R122, R125, R126).
-/
namespace Sys2Proof.Machine

/-- NOP (R125): `complete(OK)`. While busy it is rejected. -/
def execNop (s : State) : Answer := command (complete .ok) s

/-- CANCEL (R126). Idle: `complete(OK)`. Busy: the running command ends with Cancelled; the results it writes
only at completion keep the values its acceptance gave them, and its progress stays as reached. -/
def execCancel (s : State) : Answer :=
  .next (if busy s then complete .cancelled (accept s) else complete .ok (accept s))

/-- An illegal command word (R122, R104): IllegalCommand while idle, rejected while busy. -/
def illegalCommand (s : State) : Answer := command (complete .illegalCommand) s

end Sys2Proof.Machine
end

