-- ==== Sys2Proof/Machine/KeystreamGen.lean ====
section
/-!
DEFINITION. GENKS, its busy step and its completion (spec/44_keystream.md R200 to R206).
-/
namespace Sys2Proof.Machine

/-- The rule of GENKS after acceptance (R200). -/
def genksRule (s : State) : State :=
  if s.loaded then
    { s with
      ks := { s.ks with len := 0#32 }
      det := detStart s.live.m s.det
      op := .genks }
  else complete .notLoaded s

/-- GENKS (R200). -/
def execGenks (s : State) : Answer := command genksRule s

/-- What a clock of the run leaves (R203): the output bit in KSBUF[k] (R205), ONES, LAST_OUT, LAST_FB, and one
trace record (R206). -/
def storeClock (k st : Word) (fb out : Bool) (s : State) : State :=
  { s with
    ks := { s.ks with buf := Memory.write s.ks.buf k.toNat (BitVec.ofBool out) }
    det := { s.det with ones := s.det.ones || out }
    lastOut := out
    lastFb := fb
    traced := s.traced ++ [{ k := k, s := st, fb := fb, out := out }] }

/-- `finish_genks()` (R204). -/
def finishGenks (s : State) : State :=
  if s.det.ones then complete .ok { s with ks := { s.ks with len := s.det.cycle } }
  else complete .degenerateKeystream { s with ks := { s.ks with len := 0#32 } }

/-- The GENKS busy step (R203). -/
def genksBusyStep (s : State) : State :=
  match detIter .live s with
  | (.clocked k st fb out, t) => storeClock k st fb out t
  | (.cap, t) => finishGenks t
  | (.repeated, t) => finishGenks t

end Sys2Proof.Machine
end

