-- ==== Sys2Proof/Machine/Flags.lean ====
section
/-!
DEFINITION. The flag computations: the completion codes (spec/60_exceptions.md R300), the STATUS word
(spec/10_state.md R42), the ENGINE word (R50), and the pass condition of a primitivity test (spec/42_detector.md R167).
-/
namespace Sys2Proof.Machine

/-- The three-bit code of STATUS.ERR (R300). -/
def ErrCode.bits (e : ErrCode) : BitVec 3 :=
  match e with
  | .ok => 0#3
  | .invalidConfig => 1#3
  | .degenerateKeystream => 2#3
  | .illegalCommand => 3#3
  | .notLoaded => 4#3
  | .cancelled => 5#3

/-- A field of a register word, shifted to its lowest bit. -/
def field {w : Nat} (v : BitVec w) (lo : Nat) : Word := BitVec.setWidth 32 v <<< lo

/-- A one-bit field of a register word. -/
def flag (b : Bool) (lo : Nat) : Word := field (BitVec.ofBool b) lo

/-- The STATUS word (R42). Bits 7 and 31:12 read 0. -/
def statusWord (s : State) : Word :=
  flag (busy s) 0 ||| flag s.doneBit 1 ||| flag s.loaded 2 ||| flag s.rejected 3 |||
  field s.err.bits 4 ||| flag s.primitive 8 ||| flag s.search.verified 9 |||
  flag s.search.fallback 10 ||| flag s.det.repeated 11

/-- The ENGINE word (R50). NEXT_FB is combinational: the feedback the next clock of E would inject. -/
def engineWord (s : State) : Word :=
  flag s.lastOut 0 ||| flag s.lastFb 1 ||| flag (feedback s.live) 2 |||
  field (BitVec.ofNat 8 s.live.m) 8 ||| field (BitVec.ofNat 8 s.test.m) 16

/-- `pass()` of R167. The size test is kept because the spec states it. -/
def passCondition (d : Detector) : Bool := !d.repeated && d.seenCount == d.ncap

end Sys2Proof.Machine
end

