-- ==== Sys2Proof/Machine/Operands.lean ====
section
/-!
DEFINITION. The operands of the commands: the configuration registers read at acceptance and their checks
(spec/30_encoding.md R105, spec/40_control.md R129, R130), and the candidate tap sets of SEARCH (spec/43_search.md
R180, R182).
-/
namespace Sys2Proof.Machine

/-- `valid_width(w)`: `2 ≤ w ≤ MMAX`, with WIDTH an unsigned number (R130, R7). -/
def validWidth (s : State) : Bool :=
  decide (2 ≤ s.conf.width.toNat) && decide (s.conf.width.toNat ≤ s.mmax)

/-- `valid_mask(v, m)`: bits `[31:m]` of `v` are all 0 (R130). -/
def validMask (v : Word) (m : Nat) : Bool := (v >>> m) == 0#32

/-- The width `m` that an accepted command reads from WIDTH (R105). -/
def widthOperand (s : State) : Nat := s.conf.width.toNat

/-- `v[m-1:0]`, a packed operand of width `m` (R145, R165). -/
def lowBits (v : Word) (m : Nat) : Word := v &&& mask m

/-- The check of LOAD: WIDTH, SEED and TAPS (R145). -/
def loadOperandsValid (s : State) : Bool :=
  validWidth s && validMask s.conf.seed (widthOperand s) && validMask s.conf.taps (widthOperand s)

/-- The check of CHECK: WIDTH and TAPS (R165). -/
def checkOperandsValid (s : State) : Bool :=
  validWidth s && validMask s.conf.taps (widthOperand s)

/-- `cand(m, i) = 2^(m-1) | i` (R180). -/
def cand (m : Nat) (i : Word) : Word := BitVec.ofNat 32 (2 ^ (m - 1)) ||| i

/-- `fallback(m) = 2^(m-1) | 2^(m-2)` (R182). -/
def fallbackTaps (m : Nat) : Word := BitVec.ofNat 32 (2 ^ (m - 1)) ||| BitVec.ofNat 32 (2 ^ (m - 2))

/-- The last candidate index of width `m`, `2^(m-1) - 1` (R181). -/
def lastCandidate (m : Nat) : Word := BitVec.ofNat 32 (2 ^ (m - 1) - 1)

end Sys2Proof.Machine
end

