-- ==== Sys2Proof/Machine/SequenceDetector.lean ====
section
/-!
DEFINITION. CHECK and its busy step (spec/42_detector.md R165, R166).
-/
namespace Sys2Proof.Machine

/-- The rule of CHECK after acceptance (R165): the test engine starts on all-ones, the detector on an empty
table. -/
def checkRule (s : State) : State :=
  if checkOperandsValid s then
    { s with
      primitive := false
      test :=
        { m := widthOperand s
          r := mask (widthOperand s)
          t := lowBits s.conf.taps (widthOperand s) }
      det := detStart (widthOperand s) s.det
      op := .check }
  else complete .invalidConfig s

/-- CHECK (R165). -/
def execCheck (s : State) : Answer := command checkRule s

/-- The end of a CHECK (R166): PRIMITIVE takes the pass condition. -/
def finishCheck (s : State) : State := complete .ok { s with primitive := passCondition s.det }

/-- The CHECK busy step (R166). -/
def checkBusyStep (s : State) : State :=
  match detIter .test s with
  | (.clocked _ _ _ _, t) => t
  | (.cap, t) => finishCheck t
  | (.repeated, t) => finishCheck t

end Sys2Proof.Machine
end

