-- ==== Sys2Proof/Machine/ShiftEngine.lean ====
section
/-!
DEFINITION. The commands that drive the live engine: LOAD and SHIFT (spec/41_engine.md R145, R146).
-/
namespace Sys2Proof.Machine

/-- The rule of LOAD after acceptance (R145). A failed check changes nothing but DONE and ERR. -/
def loadRule (s : State) : State :=
  if loadOperandsValid s then
    complete .ok
      { s with
        live :=
          { m := widthOperand s
            r := lowBits s.conf.seed (widthOperand s)
            t := lowBits s.conf.taps (widthOperand s) }
        loaded := true
        lastOut := false
        lastFb := false }
  else complete .invalidConfig s

/-- LOAD (R145). -/
def execLoad (s : State) : Answer := command loadRule s

/-- One clock of E with the latching of its output and feedback bits (R23, R142). -/
def clockLive (s : State) : State :=
  { s with live := shiftStep s.live, lastOut := output s.live, lastFb := feedback s.live }

/-- The rule of SHIFT after acceptance (R146). -/
def shiftRule (s : State) : State :=
  if s.loaded then complete .ok (clockLive s) else complete .notLoaded s

/-- SHIFT (R146). -/
def execShift (s : State) : Answer := command shiftRule s

end Sys2Proof.Machine
end

