-- ==== Sys2Proof/Machine/TapSearch.lean ====
section
/-!
DEFINITION. SEARCH, its candidate setup and its busy step (spec/43_search.md R183 to R185).
-/
namespace Sys2Proof.Machine

/-- `Setup(i)` (R185): the test engine takes candidate `i` from all-ones, on an empty table. -/
def setupCandidate (i : Word) (s : State) : State :=
  { s with
    search := { s.search with searchI := i }
    test := { s.test with r := mask s.test.m, t := cand s.test.m i }
    det := detStart s.test.m s.det }

/-- The rule of SEARCH after acceptance (R183). -/
def searchRule (s : State) : State :=
  if validWidth s then
    { setupCandidate 1#32
        { s with
          primitive := false
          search := { s.search with resultTaps := 0#32, verified := false, fallback := false }
          test := { s.test with m := widthOperand s } } with
      op := .search }
  else complete .invalidConfig s

/-- SEARCH (R183). -/
def execSearch (s : State) : Answer := command searchRule s

/-- The end of one candidate's run (R184): the first passing candidate is returned; after the last failing one
the fallback set is; otherwise the next candidate is set up in the same step. -/
def endCandidate (s : State) : State :=
  if passCondition s.det then
    complete .ok
      { s with
        primitive := true
        search := { s.search with resultTaps := s.test.t, verified := true } }
  else if s.search.searchI = lastCandidate s.test.m then
    complete .ok
      { s with
        primitive := false
        search := { s.search with resultTaps := fallbackTaps s.test.m, fallback := true } }
  else setupCandidate (s.search.searchI + 1#32) s

/-- The SEARCH busy step (R184). -/
def searchBusyStep (s : State) : State :=
  match detIter .test s with
  | (.clocked _ _ _ _, t) => t
  | (.cap, t) => endCandidate t
  | (.repeated, t) => endCandidate t

end Sys2Proof.Machine
end

