-- ==== Sys2Proof/Machine/Dispatch.lean ====
section
/-!
DEFINITION. What a command written to CMD does: one arm per constructor, each one call of the command's meaning.
-/
namespace Sys2Proof.Machine

def exec (i : Instr) (s : State) : Host.Outcome State Fault Refusal :=
  match i with
  | .nop => Sys2Proof.Machine.execNop s
  | .load => Sys2Proof.Machine.execLoad s
  | .shift => Sys2Proof.Machine.execShift s
  | .check => Sys2Proof.Machine.execCheck s
  | .search => Sys2Proof.Machine.execSearch s
  | .genks => Sys2Proof.Machine.execGenks s
  | .cancel => Sys2Proof.Machine.execCancel s

end Sys2Proof.Machine
end

