-- ==== Sys2Proof/Machine/Window.lean ====
section
/-!
DEFINITION. The register window (spec/10_state.md R40 to R59) and the host accesses to it (spec/20_memory.md R72 to
R74).
-/
namespace Sys2Proof.Machine

/-- KSDATA (R56): the keystream bit at KSADDR, or 0 at or above KSLEN. -/
def keystreamData (s : State) : Word :=
  if s.conf.ksaddr < s.ks.len then BitVec.setWidth 32 (Memory.read s.ks.buf s.conf.ksaddr.toNat)
  else 0#32

/-- `HostRead(off)` (R72): the register at a byte offset of the window, by the table of R40. Reserved offsets
read 0 (R59), and so does CMD (R41). -/
def hostRead (s : State) (off : Nat) : Word :=
  match off with
  | 0x04 => statusWord s
  | 0x08 => s.conf.width
  | 0x0C => s.conf.seed
  | 0x10 => s.conf.taps
  | 0x14 => s.conf.ksaddr
  | 0x18 => s.live.r
  | 0x1C => s.live.t
  | 0x20 => engineWord s
  | 0x24 => s.det.cycle
  | 0x28 => s.det.repeatFirst
  | 0x2C => s.search.searchI
  | 0x30 => s.search.resultTaps
  | 0x34 => s.ks.len
  | 0x38 => keystreamData s
  | 0x3C => s.test.r
  | 0x40 => s.test.t
  | 0x44 => field (BitVec.ofNat 8 s.mmax) 0
  | _ => 0#32

/-- `HostWrite(off, v)` of R73 for every offset but CMD: the four configuration registers store all 32 bits, in
every state; every other write is ignored. -/
def hostWrite (s : State) (off : Nat) (v : Word) : State :=
  match off with
  | 0x08 => { s with conf := { s.conf with width := v } }
  | 0x0C => { s with conf := { s.conf with seed := v } }
  | 0x10 => { s with conf := { s.conf with taps := v } }
  | 0x14 => { s with conf := { s.conf with ksaddr := v } }
  | _ => s

/-- Why an access is refused (R74), if it is; the order in which the reasons are named is a DESIGN CHOICE, safe (assumption
log 5). -/
def accessRefusal (a : Access) : Option Refusal :=
  if a.bits ≠ 32 then some (.accessWidth a.bits)
  else if 0x100 ≤ a.off then some (.accessOutsideWindow a.off)
  else if a.off % 4 ≠ 0 then some (.accessMisaligned a.off)
  else none

/-- The value of a read goes to the host; nothing of the block changes (R72, R78). -/
def readEffect (off : Nat) (s : State) : State :=
  { s with reads := s.reads ++ [(off, hostRead s off)] }

end Sys2Proof.Machine
end

