-- ==== Sys2Proof/Machine/Sequencer.lean ====
section
/-!
DEFINITION. The busy step (spec/40_control.md R127), the reset event (spec/70_reset_and_hazards.md R400), and what comes
next in the total order of events (spec/20_memory.md R79).
-/
namespace Sys2Proof.Machine

/-- One busy step, by OP (R127). While OP is IDLE the block changes nothing by itself. -/
def busyStep (s : State) : State :=
  match s.op with
  | .idle => s
  | .check => checkBusyStep s
  | .search => searchBusyStep s
  | .genks => genksBusyStep s

/-- Reset (R400): every element of the block takes its reset value as one atomic event. The constant PARAM, the
records already emitted, and the host's own side of the port stay (the last is a DESIGN CHOICE, safe: assumption
log 7). -/
def resetEvent (s : State) : State :=
  { State.resetAt s.mmax with traced := s.traced, events := s.events, reads := s.reads }

/-- The host's `wait` (R107): while BUSY reads 1 the block takes its next busy step and the host goes on
polling; once BUSY reads 0 the wait is over. The polling reads have no effect (R72) and are not listed
(DESIGN CHOICE, safe: assumption log 4). -/
def waitStep (s : State) : State := if busy s then busyStep s else popEvent s

/-- What the next event of the total order is: a word written to CMD, with the state it is written in, or
anything else, with what the step answers. -/
inductive Fetched where
  | command (w : Word) (s : State)
  | settled (a : Answer)

/-- A host access that is the next event; `s` is the state once it has been taken from the order. -/
def fetchAccess (a : Access) (s : State) : Fetched :=
  match accessRefusal a, a.kind with
  | some r, _ => .settled (.refused r)
  | none, .read => .settled (.next (readEffect a.off s))
  | none, .write v => if a.off = 0x00 then .command v s else .settled (.next (hostWrite s a.off v))

/-- Taking the next event (R79). Once no event is left the block runs on: it takes its busy steps while it is
busy (the fairness of R128) and keeps its state while it is idle (R127). The order itself comes from outside, as the
list `events` (DESIGN CHOICE, safe: assumption log 2; unsafe for a block that stalls: log 10). -/
def fetch (s : State) : Fetched :=
  match s.events with
  | [] => .settled (.next (busyStep s))
  | .access a :: _ => fetchAccess a (popEvent s)
  | .busy :: _ => .settled (.next (busyStep (popEvent s)))
  | .wait :: _ => .settled (.next (waitStep s))
  | .reset :: _ => .settled (.next (resetEvent (popEvent s)))

end Sys2Proof.Machine
end

