-- ==== Sys2Proof/Machine/Step.lean ====
section
/-!
DEFINITION. One step: the next event of the total order of host accesses, busy steps and resets (spec/20_memory.md R79).
-/
namespace Sys2Proof.Machine

/-- One step. A word written to CMD is decoded and executed in the same atomic effect (R76, R120); an illegal
word has its own rule (R122). -/
def step (s : State) : Host.Outcome State Fault Refusal :=
  match fetch s with
  | .command w t =>
    match decode w with
    | .command i => exec i t
    | .illegal _ => illegalCommand t
  | .settled a => a

/-- The state in which the very next event is the host's write of the table word to CMD: commands are not
fetched from a memory (R81), the host writes them one at a time. -/
def State.withFetchWord (s : State) (nbits w : Nat) : State := placeCommand (tableWord nbits w) s

end Sys2Proof.Machine
end

