-- ==== Sys2Proof/Machine/HostProgram.lean ====
section
/-!
DEFINITION. Host programs: the statements and pseudo-instructions of spec/30_encoding.md R106 and R107, as events of the
host's side of the port.
-/
namespace Sys2Proof.Machine

/-- The register names of the window (spec/10_state.md R40). -/
inductive Reg where
  | CMD | STATUS | WIDTH | SEED | TAPS | KSADDR | STATE | ETAPS | ENGINE | CYCLE | REPEAT_FIRST | SEARCH_I
  | RESULT_TAPS | KSLEN | KSDATA | TSTATE | TTAPS | PARAM
  deriving DecidableEq, Repr

/-- `offset(NAME)`: the byte offset of a register (R40). -/
def Reg.offset (n : Reg) : Nat :=
  match n with
  | .CMD => 0x00
  | .STATUS => 0x04
  | .WIDTH => 0x08
  | .SEED => 0x0C
  | .TAPS => 0x10
  | .KSADDR => 0x14
  | .STATE => 0x18
  | .ETAPS => 0x1C
  | .ENGINE => 0x20
  | .CYCLE => 0x24
  | .REPEAT_FIRST => 0x28
  | .SEARCH_I => 0x2C
  | .RESULT_TAPS => 0x30
  | .KSLEN => 0x34
  | .KSDATA => 0x38
  | .TSTATE => 0x3C
  | .TTAPS => 0x40
  | .PARAM => 0x44

/-- `wr NAME, v` (R106). -/
def wr (n : Reg) (v : Word) : Event := .access { bits := 32, off := n.offset, kind := .write v }

/-- `rd NAME` (R106). -/
def rd (n : Reg) : Event := .access { bits := 32, off := n.offset, kind := .read }

/-- `cmd MNEMONIC` (R107). -/
def cmd (i : Instr) : Event := wr .CMD (encode i)

/-- `ksread k` (R107). -/
def ksread (k : Word) : List Event := [wr .KSADDR k, rd .KSDATA]

/-- `load m, seed, taps` (R107). The fourth pseudo-instruction, `wait`, is `Event.wait`. -/
def loadProgram (m seed taps : Word) : List Event :=
  [wr .WIDTH m, wr .SEED seed, wr .TAPS taps, cmd .load]

/-- The host is about to run a program: its events come before those already waiting. -/
def withProgram (p : List Event) (s : State) : State := { s with events := p ++ s.events }

end Sys2Proof.Machine
end

