-- ==== Sys2Proof/WellFormed.lean ====
section
/-!
DEFINITION. Well-formedness: of a command (nothing to check) and of a host access (the duty of R74 and R84).
-/
namespace Sys2Proof

/-- A command has no operand field (spec/30_encoding.md R105), so every command is well formed. -/
def Instr.wf (i : Instr) : Bool :=
  match i with
  | .nop => true
  | .load => true
  | .shift => true
  | .check => true
  | .search => true
  | .genks => true
  | .cancel => true

namespace Machine

/-- The accesses that are defined (spec/20_memory.md R72 to R74): 32 bits, at a multiple of 4, in the
256-byte window. -/
def Access.wf (a : Access) : Bool :=
  a.bits == 32 && a.off % 4 == 0 && decide (a.off < 0x100)

/-- A host event is well formed if the access it carries is; turns of the block, `wait` and reset always are. -/
def Event.wf (e : Event) : Bool :=
  match e with
  | .access a => a.wf
  | .busy => true
  | .wait => true
  | .reset => true

end Machine

end Sys2Proof
end

