-- ==== Sys2Proof/Safety.lean ====
section
/-!
DEFINITION. What the claims speak of: runs of an engine and of the block, the invariant of the block's states, and
when two states cannot be told apart.
-/
namespace Sys2Proof.Machine

/-! ## Runs -/

/-- The engine after `k` clocks of ShiftStep (spec/42_detector.md R164: the state `s_k` is its register). -/
def orbit (x : Engine) : Nat → Engine
  | 0 => x
  | k + 1 => shiftStep (orbit x k)

/-- The register state after `k` clocks, as the packed number (`s_k` of R164). -/
def orbitState (x : Engine) (k : Nat) : Word := (orbit x k).r

/-- `n` busy steps of the block, with no host access between them. -/
def busySteps : Nat → State → State
  | 0, s => s
  | n + 1, s => busySteps n (busyStep s)

/-- The first `c` states of the engine are all different. -/
def DistinctUpTo (x : Engine) (c : Nat) : Prop :=
  ∀ i j, i < j → j < c → orbitState x i ≠ orbitState x j

/-- A detector run of engine `x` stops with CYCLE = `c` (R164): the first `c` states differ, and either `c` is
the cap `2^m - 1` or the state after `c` clocks repeats an earlier one. -/
structure StopsAt (x : Engine) (c : Nat) : Prop where
  distinct : DistinctUpTo x c
  below : c ≤ 2 ^ x.m - 1
  stops : c = 2 ^ x.m - 1 ∨ ∃ j, j < c ∧ orbitState x c = orbitState x j

/-- The engine a primitivity test starts on: width `m`, all-ones, the given taps (R165, spec/43_search.md R185). -/
def testEngine (m : Nat) (taps : Word) : Engine := { m := m, r := mask m, t := taps }

/-- The procedure of R167 passes the tap set: the test run makes all its `2^m - 1` clocks without a repeat. -/
def Passes (m : Nat) (taps : Word) : Prop := DistinctUpTo (testEngine m taps) (2 ^ m - 1)

/-- The trace record of the clock that takes engine `x` from cycle `k` (spec/44_keystream.md R206). -/
def recordAt (x : Engine) (k : Nat) : TraceRec :=
  { k := BitVec.ofNat 32 k, s := orbitState x k, fb := feedback (orbit x k), out := output (orbit x k) }

/-! ## The invariant -/

/-- The engine invariant (spec/10_state.md R20, R21): a width up to MMAX, no bit at or above the width. -/
structure Engine.Ok (mmax : Nat) (x : Engine) : Prop where
  width : x.m ≤ mmax
  state : x.r.toNat < 2 ^ x.m
  taps : x.t.toNat < 2 ^ x.m

/-- MMAX is a legal parameter (R6). -/
structure ParamOk (s : State) : Prop where
  low : 2 ≤ s.mmax
  high : s.mmax ≤ 30

/-- The engines (R21, R22): LOADED says whether E holds a loaded engine, and before any LOAD it holds its reset
values. -/
structure EnginesOk (s : State) : Prop where
  live : s.live.Ok s.mmax
  test : s.test.Ok s.mmax
  loaded : s.loaded = true → 2 ≤ s.live.m
  unloaded : s.loaded = false → s.live = Engine.reset ∧ s.lastOut = false ∧ s.lastFb = false
  running : s.op = .check ∨ s.op = .search → 2 ≤ s.test.m

/-- The command status and the result fields while busy (R25, spec/70_reset_and_hazards.md R404). -/
structure StatusOk (s : State) : Prop where
  running : s.op ≠ .idle → s.doneBit = false ∧ s.err = .ok
  check : s.op = .check → s.primitive = false
  search : s.op = .search → s.primitive = false ∧ s.search.resultTaps = 0#32 ∧
    s.search.verified = false ∧ s.search.fallback = false
  genks : s.op = .genks → s.loaded = true ∧ s.ks.len = 0#32

/-- The width the running detector works at: T for CHECK and SEARCH, E for GENKS (spec/42_detector.md R160). -/
def runWidth (s : State) : Nat := if s.op = .genks then s.live.m else s.test.m

/-- The detector (R26, R161 to R164): canonical stores, a clock count within the cap, a table of CYCLE
different states while a command runs, REPEAT_FIRST = 0 where REPEAT = 0 (R52). -/
structure DetectorOk (s : State) : Prop where
  validWf : Memory.wf s.det.seenValid = true
  idxWf : Memory.wf s.det.seenIdx = true
  cap : s.det.ncap.toNat < 2 ^ s.mmax
  within : s.det.cycle.toNat ≤ s.det.ncap.toNat
  count : s.det.seenCount = s.det.cycle
  first : s.det.repeated = false → s.det.repeatFirst = 0#32
  running : s.op ≠ .idle → s.det.ncap.toNat = 2 ^ runWidth s - 1 ∧ s.det.repeated = false
  table : s.op ≠ .idle → s.det.seenValid.length = s.det.cycle.toNat
  inside : s.op ≠ .idle → ∀ a, Memory.read s.det.seenValid a = 1#1 → a < 2 ^ runWidth s

/-- The search harness (R28, spec/43_search.md R181, R188): a result within MMAX bits, never both verified and
fallback; while SEARCH runs, the candidate under test. -/
structure SearchOk (s : State) : Prop where
  result : s.search.resultTaps.toNat < 2 ^ s.mmax
  oneOutcome : ¬ (s.search.verified = true ∧ s.search.fallback = true)
  candidate : s.op = .search → 1 ≤ s.search.searchI.toNat ∧
    s.search.searchI.toNat ≤ 2 ^ (s.test.m - 1) - 1 ∧ s.test.t = cand s.test.m s.search.searchI

/-- The keystream buffer (R30, spec/44_keystream.md R205): canonical, inside its `2^MMAX - 1` entries. -/
structure KeystreamOk (s : State) : Prop where
  bufWf : Memory.wf s.ks.buf = true
  inside : ∀ k, Memory.read s.ks.buf k = 1#1 → k < 2 ^ s.mmax - 1
  length : s.ks.len.toNat ≤ 2 ^ s.mmax - 1

/-- The invariant of the block's states. -/
structure Inv (s : State) : Prop where
  param : ParamOk s
  engines : EnginesOk s
  status : StatusOk s
  detector : DetectorOk s
  search : SearchOk s
  keystream : KeystreamOk s

/-! ## What cannot be told apart -/

/-- Two states that agree on everything but the contents R61 and 93 §2 leave unspecified: the seen-state table
while no command runs, SEEN_IDX where SEEN_VALID is 0, and KSBUF at indexes that are neither readable nor
written by the running GENKS. -/
structure Alike (s t : State) : Prop where
  rest : t = { s with
    det := { s.det with seenValid := t.det.seenValid, seenIdx := t.det.seenIdx }
    ks := { s.ks with buf := t.ks.buf } }
  valid : s.op ≠ .idle → ∀ a, Memory.read t.det.seenValid a = Memory.read s.det.seenValid a
  first : s.op ≠ .idle → ∀ a, Memory.read s.det.seenValid a = 1#1 →
    Memory.read t.det.seenIdx a = Memory.read s.det.seenIdx a
  readable : ∀ k, k < s.ks.len.toNat → Memory.read t.ks.buf k = Memory.read s.ks.buf k
  written : s.op = .genks → ∀ k, k < s.det.cycle.toNat →
    Memory.read t.ks.buf k = Memory.read s.ks.buf k

/-- Two answers of a step that cannot be told apart: alike next states, or the same refusal. -/
def AnswersAlike (a b : Answer) : Prop :=
  (∃ s t, a = .next s ∧ b = .next t ∧ Alike s t) ∨ (∃ r, a = .refused r ∧ b = .refused r)

end Sys2Proof.Machine
end

