-- ==== Sys2Proof/Certificates/Slice0/Obligations.lean ====
section
/-!
DEFINITION. The statements for the provers. Each docstring names the rule of spec/ it formalises. A next state written as
`{ s with … }` is the whole next state: every element not named in it is unchanged, the three stores and the trace
among them.
-/
open Sys2Proof Sys2Proof.Machine

/-! ## Encoding -/

/-- R102: the seven command words, written out, are the seven commands. -/
def Obligations.DecodesTheSevenWords : Prop :=
  decode 0x00000000#32 = .command .nop ∧ decode 0x00000001#32 = .command .load ∧
  decode 0x00000002#32 = .command .shift ∧ decode 0x00000003#32 = .command .check ∧
  decode 0x00000004#32 = .command .search ∧ decode 0x00000005#32 = .command .genks ∧
  decode 0x00000006#32 = .command .cancel

/-- R103: decoding is total; a word spells a command iff bits 31:4 are 0 and bits 3:0 are at most 6, and then bits 3:0 number
the command in R102's order; every other word is illegal. -/
def Obligations.DecodingIsTotalAndExact : Prop :=
  ∀ w : Word,
    (w.toNat / 16 = 0 ∧ w.toNat % 16 ≤ 6 →
      decode w = .command
        ([Instr.nop, .load, .shift, .check, .search, .genks, .cancel].getD (w.toNat % 16) .nop)) ∧
    (¬ (w.toNat / 16 = 0 ∧ w.toNat % 16 ≤ 6) → ∃ why, decode w = .illegal why)

/-- Decode and encode agree, in both directions (R102, R103). -/
def Obligations.DecodeAndEncodeAgree : Prop :=
  ∀ (w : Word) (i : Instr), decode w = .command i ↔ w = encode i

/-! ## A step -/

/-- R120, R121 and R76: when the next event is a host write of a command's word to CMD, the step is `exec` of that command
in the state with the event taken; a word placed by `withFetchWord` is that event (the model's own form: assumption log 2).
-/
def Obligations.StepRunsTheDecodedCommand : Prop :=
  ∀ (s : State) (w : Word) (i : Instr), decode w = .command i →
    (∀ rest, s.events = wr .CMD w :: rest → step s = exec i { s with events := rest }) ∧
    step (s.withFetchWord 32 w.toNat) = exec i s

/-- R122: an illegal word written while idle completes with IllegalCommand and does nothing else; STATUS then
reads 0x32 where LOADED and the result flags are 0. -/
def Obligations.IllegalWordWhileIdle : Prop :=
  ∀ (s : State) (w : Word) (rest : List Event), s.op = .idle → s.events = wr .CMD w :: rest →
    (w.toNat / 16 ≠ 0 ∨ 7 ≤ w.toNat % 16) →
    ∃ t, t = { s with events := rest, doneBit := true, err := .illegalCommand, rejected := false } ∧
      step s = .next t ∧
      (s.loaded = false → s.primitive = false → s.search.verified = false →
        s.search.fallback = false → s.det.repeated = false → hostRead t 0x04 = 0x00000032#32)

/-- R123: while busy every word but CANCEL, legal or not, sets REJECTED and does nothing else; no busy step, the completing
one included, clears REJECTED; the next word accepted while idle does. -/
def Obligations.BusyRejectsAllButCancel : Prop :=
  (∀ (s : State) (w : Word) (rest : List Event), s.op ≠ .idle → s.events = wr .CMD w :: rest →
    w ≠ 0x00000006#32 → step s = .next { s with events := rest, rejected := true }) ∧
  (∀ s : State, (busyStep s).rejected = s.rejected) ∧
  (∀ (s : State) (w : Word) (rest : List Event), s.op = .idle → s.events = wr .CMD w :: rest →
    ∃ t, step s = .next t ∧ t.rejected = false)

/-- R24 and R124: a command accepted while idle clears REJECTED, and either has completed in the same step or runs as
CHECK, SEARCH or GENKS with DONE = 0 and ERR = OK. -/
def Obligations.AcceptedCommandCompletesOrRuns : Prop :=
  ∀ (i : Instr) (s : State), s.op = .idle →
    ∃ t, exec i s = .next t ∧ t.rejected = false ∧
      ((t.op = .idle ∧ t.doneBit = true) ∨
        (t.doneBit = false ∧ t.err = .ok ∧
          ((i = .check ∧ t.op = .check) ∨ (i = .search ∧ t.op = .search) ∨
            (i = .genks ∧ t.op = .genks))))

/-- R304: a command that fails at its acceptance check (InvalidConfig or NotLoaded) changes nothing but DONE, ERR and
REJECTED. -/
def Obligations.FailedCommandChangesOnlyStatus : Prop :=
  ∀ (i : Instr) (s t : State), s.op = .idle → exec i s = .next t →
    t.err = .invalidConfig ∨ t.err = .notLoaded →
    t = { s with doneBit := true, err := t.err, rejected := false }

/-! ## Control commands -/

/-- R125: NOP completes with OK and changes nothing else; while busy it is rejected. -/
def Obligations.NopCompletesWithOk : Prop :=
  decode 0x00000000#32 = .command .nop ∧
  ∀ s : State,
    (s.op = .idle →
      exec .nop s = .next { s with doneBit := true, err := .ok, rejected := false }) ∧
    (s.op ≠ .idle → exec .nop s = .next { s with rejected := true })

/-- R126: CANCEL while idle completes with OK; while busy it ends the running command with Cancelled, whose results keep
the cleared values its acceptance gave them, and all progress stays. -/
def Obligations.CancelEndsTheRunningCommand : Prop :=
  decode 0x00000006#32 = .command .cancel ∧
  ∀ s : State,
    (s.op = .idle →
      exec .cancel s = .next { s with doneBit := true, err := .ok, rejected := false }) ∧
    (s.op ≠ .idle → ∃ t,
      t = { s with op := .idle, doneBit := true, err := .cancelled, rejected := false } ∧
      exec .cancel s = .next t ∧
      (Inv s →
        (s.op = .check → t.primitive = false) ∧
        (s.op = .search → t.search.resultTaps = 0#32 ∧ t.search.verified = false ∧
          t.search.fallback = false ∧ t.primitive = false) ∧
        (s.op = .genks → t.ks.len = 0#32)))

/-- R408, R307: the CANCEL and the completing busy step may come in either order. First the CANCEL: Cancelled, and no
result. First the busy step: the command's own results, and ERR = OK over its own code. -/
def Obligations.CancelRaceBothOrders : Prop :=
  ∀ (s : State) (rest : List Event), s.op ≠ .idle → (busyStep s).op = .idle →
    (s.events = [cmd .cancel, .busy] ++ rest →
      ∃ t, step s = .next t ∧
        step t = .next { s with
          op := .idle, doneBit := true, err := .cancelled, rejected := false, events := rest }) ∧
    (s.events = [.busy, cmd .cancel] ++ rest →
      ∃ t, step s = .next t ∧
        step t = .next { busyStep s with
          doneBit := true, err := .ok, rejected := false, events := rest })

/-! ## The shift engine -/

/-- R140, R141, R142: one clock. Bit i-1 moves to bit i, the feedback enters bit 0, no bit reaches the width; the output is
the old bit m-1; the feedback is the XOR of the old register bits at the tap positions. -/
def Obligations.ShiftStepMovesTheBits : Prop :=
  ∀ x : Engine, 1 ≤ x.m → x.m ≤ 30 → x.t.toNat < 2 ^ x.m →
    (shiftStep x).m = x.m ∧ (shiftStep x).t = x.t ∧
    (shiftStep x).r.getLsbD 0 = feedback x ∧
    (∀ i, 1 ≤ i → i < x.m → (shiftStep x).r.getLsbD i = x.r.getLsbD (i - 1)) ∧
    (∀ i, x.m ≤ i → (shiftStep x).r.getLsbD i = false) ∧
    output x = x.r.getLsbD (x.m - 1) ∧
    feedback x =
      (List.range x.m).foldl (fun b j => xor b (x.t.getLsbD j && x.r.getLsbD j)) false ∧
    (x.t = 0#32 → feedback x = false)

/-- R143: ShiftStep keeps the width and keeps the register below `2^m`, over any number of clocks. -/
def Obligations.ShiftStepKeepsTheLength : Prop :=
  ∀ (x : Engine) (k : Nat), 1 ≤ x.m → x.r.toNat < 2 ^ x.m →
    (orbit x k).m = x.m ∧ (orbit x k).t = x.t ∧ (orbit x k).r.toNat < 2 ^ x.m

/-- R150: ShiftStep is linear over GF(2), and the zero state is fixed with output and feedback 0. -/
def Obligations.ShiftStepIsLinear : Prop :=
  (∀ (m : Nat) (t r1 r2 : Word), ∀ x y z : Engine,
    x = ⟨m, r1, t⟩ → y = ⟨m, r2, t⟩ → z = ⟨m, r1 ^^^ r2, t⟩ →
    (shiftStep z).r = (shiftStep x).r ^^^ (shiftStep y).r ∧
    feedback z = xor (feedback x) (feedback y) ∧ output z = xor (output x) (output y)) ∧
  (∀ x : Engine, x.r = 0#32 → shiftStep x = x ∧ feedback x = false ∧ output x = false)

/-- R149: with tap m-1 ShiftStep is a bijection on the `2^m` states, and the old state is rebuilt from the new one; without
it the states r and `r ^ 2^(m-1)` have the same successor. -/
def Obligations.ShiftStepInvertibleIffTopTap : Prop :=
  ∀ (m : Nat) (t : Word), 2 ≤ m → m ≤ 30 → t.toNat < 2 ^ m →
    (t.getLsbD (m - 1) = true →
      (∀ r' : Word, r'.toNat < 2 ^ m →
        ∃ r : Word, r.toNat < 2 ^ m ∧ (shiftStep ⟨m, r, t⟩).r = r' ∧
          ∀ q : Word, q.toNat < 2 ^ m → (shiftStep ⟨m, q, t⟩).r = r' → q = r) ∧
      (∀ r r' : Word, r.toNat < 2 ^ m → (shiftStep ⟨m, r, t⟩).r = r' →
        (∀ i, 1 ≤ i → i ≤ m - 1 → r.getLsbD (i - 1) = r'.getLsbD i) ∧
        r.getLsbD (m - 1) = xor (r'.getLsbD 0)
          (parity ((r &&& t) &&& mask (m - 1))))) ∧
    (t.getLsbD (m - 1) = false → ∀ r : Word, r.toNat < 2 ^ m →
      shiftStep ⟨m, r ^^^ BitVec.ofNat 32 (2 ^ (m - 1)), t⟩ = shiftStep ⟨m, r, t⟩ ∧
      r ^^^ BitVec.ofNat 32 (2 ^ (m - 1)) ≠ r)

/-- R145: LOAD takes WIDTH, SEED and TAPS if the width is legal and no seed or tap bit lies at or above it, and otherwise
fails with InvalidConfig and changes nothing else. -/
def Obligations.LoadBuildsTheLiveEngine : Prop :=
  decode 0x00000001#32 = .command .load ∧
  ∀ s : State, s.op = .idle →
    (2 ≤ s.conf.width.toNat ∧ s.conf.width.toNat ≤ s.mmax ∧
        (∀ i, s.conf.width.toNat ≤ i → s.conf.seed.getLsbD i = false) ∧
        (∀ i, s.conf.width.toNat ≤ i → s.conf.taps.getLsbD i = false) →
      exec .load s = .next { s with
        live := { m := s.conf.width.toNat, r := s.conf.seed, t := s.conf.taps }
        loaded := true, lastOut := false, lastFb := false
        doneBit := true, err := .ok, rejected := false }) ∧
    (¬ (2 ≤ s.conf.width.toNat ∧ s.conf.width.toNat ≤ s.mmax ∧
        (∀ i, s.conf.width.toNat ≤ i → s.conf.seed.getLsbD i = false) ∧
        (∀ i, s.conf.width.toNat ≤ i → s.conf.taps.getLsbD i = false)) →
      exec .load s = .next { s with doneBit := true, err := .invalidConfig, rejected := false })

/-- R146: SHIFT clocks the live engine once and latches the output bit (of the state before the shift) and the feedback bit;
without a loaded engine it fails with NotLoaded; while busy it is rejected. -/
def Obligations.ShiftClocksTheLiveEngine : Prop :=
  decode 0x00000002#32 = .command .shift ∧
  ∀ s : State,
    (s.op = .idle → s.loaded = true → exec .shift s = .next { s with
        live := shiftStep s.live
        lastOut := s.live.r.getLsbD (s.live.m - 1)
        lastFb := parity (s.live.r &&& s.live.t)
        doneBit := true, err := .ok, rejected := false }) ∧
    (s.op = .idle → s.loaded = false →
      exec .shift s = .next { s with doneBit := true, err := .notLoaded, rejected := false }) ∧
    (s.op ≠ .idle → exec .shift s = .next { s with rejected := true })

/-- R151: a step changes the live engine only as LOAD, SHIFT, a GENKS busy step or reset; CHECK and SEARCH, at acceptance
and in their busy steps, neither write nor read it. -/
def Obligations.LiveEngineHasThreeWriters : Prop :=
  (∀ s t : State, step s = .next t → t.live ≠ s.live →
    (s.op = .idle ∧ ∃ w rest, s.events = wr .CMD w :: rest ∧
      (decode w = .command .load ∨ decode w = .command .shift)) ∨
    s.op = .genks ∨ s.events.head? = some .reset) ∧
  (∀ (s : State) (x : Engine), s.op = .check ∨ s.op = .search →
    busyStep { s with live := x } = { busyStep s with live := x }) ∧
  (∀ (i : Instr) (s : State) (x : Engine), i = .check ∨ i = .search →
    ∃ t, exec i s = .next t ∧ exec i { s with live := x } = .next { t with live := x })

/-! ## The detector and CHECK -/

/-- R161: a run starts with an empty table, zero counts and the cap `2^m - 1`. -/
def Obligations.DetectorStartsEmpty : Prop :=
  ∀ (m : Nat) (d : Detector), m ≤ 30 →
    (∀ a, Memory.read (detStart m d).seenValid a = 0#1) ∧
    (detStart m d).ncap.toNat = 2 ^ m - 1 ∧
    detStart m d = { d with
      seenValid := (detStart m d).seenValid, ncap := (detStart m d).ncap, seenCount := 0#32
      cycle := 0#32, repeated := false, repeatFirst := 0#32, ones := false }

/-- R162: one detector iteration. At the cap nothing changes; on a state seen before, REPEAT and REPEAT_FIRST are written;
otherwise the state is entered with its index, and the engine clocks once. -/
def Obligations.DetectorChecksThenClocks : Prop :=
  ∀ (b : Bound) (s : State),
    (s.det.cycle = s.det.ncap → detIter b s = (.cap, s)) ∧
    (s.det.cycle ≠ s.det.ncap →
      Memory.read s.det.seenValid (engineOf b s).r.toNat = 1#1 →
      detIter b s = (.repeated, { s with det := { s.det with
        repeated := true
        repeatFirst := Memory.read s.det.seenIdx (engineOf b s).r.toNat } })) ∧
    (s.det.cycle ≠ s.det.ncap →
      Memory.read s.det.seenValid (engineOf b s).r.toNat = 0#1 →
      ∃ t, detIter b s =
          (.clocked s.det.cycle (engineOf b s).r (feedback (engineOf b s)) (output (engineOf b s)),
            t) ∧
        engineOf b t = shiftStep (engineOf b s) ∧
        (∀ c, c ≠ b → engineOf c t = engineOf c s) ∧
        (∀ a, Memory.read t.det.seenValid a =
          if a = (engineOf b s).r.toNat then 1#1 else Memory.read s.det.seenValid a) ∧
        (∀ a, Memory.read t.det.seenIdx a =
          if a = (engineOf b s).r.toNat then s.det.cycle else Memory.read s.det.seenIdx a) ∧
        t = { s with
          live := t.live, test := t.test
          det := { s.det with
            seenValid := t.det.seenValid, seenIdx := t.det.seenIdx
            seenCount := s.det.seenCount + 1#32, cycle := s.det.cycle + 1#32 } })

/-- R165 at acceptance: CHECK starts the test engine on all-ones with TAPS and the detector on an empty table, or fails with
InvalidConfig and changes nothing else. -/
def Obligations.CheckStartsTheTest : Prop :=
  decode 0x00000003#32 = .command .check ∧
  ∀ s : State, s.op = .idle → s.mmax ≤ 30 →
    (2 ≤ s.conf.width.toNat ∧ s.conf.width.toNat ≤ s.mmax ∧
        (∀ i, s.conf.width.toNat ≤ i → s.conf.taps.getLsbD i = false) →
      ∃ t, exec .check s = .next t ∧
        (∀ i, t.test.r.getLsbD i = decide (i < s.conf.width.toNat)) ∧
        t = { s with
          primitive := false
          test := { m := s.conf.width.toNat, r := t.test.r, t := s.conf.taps }
          det := detStart s.conf.width.toNat s.det
          op := .check, doneBit := false, err := .ok, rejected := false }) ∧
    (¬ (2 ≤ s.conf.width.toNat ∧ s.conf.width.toNat ≤ s.mmax ∧
        (∀ i, s.conf.width.toNat ≤ i → s.conf.taps.getLsbD i = false)) →
      exec .check s = .next { s with doneBit := true, err := .invalidConfig, rejected := false })

/-- R166, R167: a CHECK busy step is one detector iteration on T; when it ends the run, PRIMITIVE takes the pass condition
and the command completes with OK. It never touches the trace, KSBUF, LAST_OUT or LAST_FB. -/
def Obligations.CheckBusyStepTests : Prop :=
  ∀ s t : State, ∀ res : DetResult, s.op = .check → detIter .test s = (res, t) →
    (∀ k st fb out, res = .clocked k st fb out → busyStep s = t) ∧
    (res = .cap ∨ res = .repeated → busyStep s = { t with
      primitive := !t.det.repeated && decide (t.det.seenCount = t.det.ncap)
      op := .idle, doneBit := true, err := .ok }) ∧
    (busyStep s).traced = s.traced ∧ (busyStep s).lastOut = s.lastOut ∧
    (busyStep s).lastFb = s.lastFb ∧
    (∀ a, Memory.read (busyStep s).ks.buf a = Memory.read s.ks.buf a)

/-- R164, R167, R173: a whole CHECK. If the run from all-ones stops at CYCLE = c, it takes exactly c + 1 busy steps, and
PRIMITIVE is 1 iff c is the cap `2^m - 1`, with REPEAT and REPEAT_FIRST telling of the repeat. -/
def Obligations.CheckRunEndsWithItsVerdict : Prop :=
  ∀ (s : State) (c : Nat), Inv s → s.op = .idle →
    2 ≤ s.conf.width.toNat → s.conf.width.toNat ≤ s.mmax →
    s.conf.taps.toNat < 2 ^ s.conf.width.toNat →
    StopsAt (testEngine s.conf.width.toNat s.conf.taps) c →
    ∃ t, exec .check s = .next t ∧
      (∀ n, n ≤ c → (busySteps n t).op = .check) ∧
      ∃ u, u = busySteps (c + 1) t ∧ u.op = .idle ∧ u.doneBit = true ∧ u.err = .ok ∧
        u.det.cycle.toNat = c ∧
        u.test = orbit (testEngine s.conf.width.toNat s.conf.taps) c ∧
        (u.primitive = true ↔ c = 2 ^ s.conf.width.toNat - 1) ∧
        (u.det.repeated = true ↔ c ≠ 2 ^ s.conf.width.toNat - 1) ∧
        (∀ j, j < c → c ≠ 2 ^ s.conf.width.toNat - 1 →
          orbitState u.test 0 = orbitState (testEngine s.conf.width.toNat s.conf.taps) j →
          u.det.repeatFirst.toNat = j) ∧
        u.live = s.live ∧ u.ks = s.ks ∧ u.traced = s.traced ∧ u.search = s.search

/-- R169, R170, R171: for m ≥ 3 the procedure passes a tap set iff the register, from all-ones, visits every nonzero state;
and it never passes a tap set without m-1. -/
def Obligations.PassesIffMaximalLength : Prop :=
  ∀ (m : Nat) (taps : Word), 3 ≤ m → m ≤ 30 → taps.toNat < 2 ^ m →
    (Passes m taps ↔
      ∀ v : Word, v ≠ 0#32 → v.toNat < 2 ^ m →
        ∃ k, k < 2 ^ m - 1 ∧ orbitState (testEngine m taps) k = v) ∧
    (taps.getLsbD (m - 1) = false → ¬ Passes m taps)

/-- R168: the corner m = 2 with the empty tap set. Four busy steps after acceptance CHECK has passed it with CYCLE = 3,
although the run ended in the zero state and never met 0b01. -/
def Obligations.CornerWidthTwoEmptyTaps : Prop :=
  ∀ s : State, s.op = .idle → s.mmax ≤ 30 → 2 ≤ s.mmax → s.conf.width = 2#32 →
    s.conf.taps = 0#32 →
    (∃ t, exec .check s = .next t ∧
      (busySteps 4 t).op = .idle ∧ (busySteps 4 t).primitive = true ∧
      (busySteps 4 t).det.cycle = 3#32 ∧ (busySteps 4 t).det.seenCount = 3#32 ∧
      (busySteps 4 t).det.repeated = false ∧ (busySteps 4 t).test.r = 0#32) ∧
    ∀ k, orbitState (testEngine 2 0#32) k ≠ 0b01#32

/-- R172: for every width, tap set and seed, a state repeats within `2^m - 1` clocks. -/
def Obligations.PeriodIsBounded : Prop :=
  ∀ x : Engine, 2 ≤ x.m → x.m ≤ 30 → x.r.toNat < 2 ^ x.m → x.t.toNat < 2 ^ x.m →
    ∃ i j, i < j ∧ j ≤ 2 ^ x.m - 1 ∧ orbitState x i = orbitState x j

/-! ## The tap search -/

/-- R180: candidate i is tap m-1 together with the positions of the 1 bits of i; no tap lies at or above m. -/
def Obligations.CandidateIsTopTapAndIndex : Prop :=
  ∀ (m : Nat) (i : Word), 2 ≤ m → m ≤ 30 → 1 ≤ i.toNat → i.toNat ≤ 2 ^ (m - 1) - 1 →
    ∀ j, (cand m i).getLsbD j = (decide (j = m - 1) || (decide (j < m - 1) && i.getLsbD j))

/-- R182: the fallback set is taps m-1 and m-2, and equals candidate `2^(m-2)`. -/
def Obligations.FallbackIsTheTwoTopTaps : Prop :=
  ∀ m : Nat, 2 ≤ m → m ≤ 30 →
    (∀ j, (fallbackTaps m).getLsbD j = (decide (j = m - 1) || decide (j = m - 2))) ∧
    fallbackTaps m = cand m (BitVec.ofNat 32 (2 ^ (m - 2)))

/-- R183 at acceptance: SEARCH clears its results and sets the test engine up with candidate 1, or fails with InvalidConfig
and changes nothing else. -/
def Obligations.SearchStartsWithCandidateOne : Prop :=
  decode 0x00000004#32 = .command .search ∧
  ∀ s : State, s.op = .idle →
    (2 ≤ s.conf.width.toNat ∧ s.conf.width.toNat ≤ s.mmax →
      exec .search s = .next { s with
        primitive := false
        search := { searchI := 1#32, resultTaps := 0#32, verified := false, fallback := false }
        test := testEngine s.conf.width.toNat (cand s.conf.width.toNat 1#32)
        det := detStart s.conf.width.toNat s.det
        op := .search, doneBit := false, err := .ok, rejected := false }) ∧
    (¬ (2 ≤ s.conf.width.toNat ∧ s.conf.width.toNat ≤ s.mmax) →
      exec .search s = .next { s with doneBit := true, err := .invalidConfig, rejected := false })

/-- R184: a SEARCH busy step. A passing candidate is returned as verified; the last failing one gives the fallback set; any
other failing one is followed by the setup of the next candidate in the same step. -/
def Obligations.SearchBusyStepAdvances : Prop :=
  ∀ s t : State, ∀ res : DetResult, s.op = .search → detIter .test s = (res, t) →
    (∀ k st fb out, res = .clocked k st fb out → busyStep s = t) ∧
    (res = .cap ∨ res = .repeated →
      (t.det.repeated = false ∧ t.det.seenCount = t.det.ncap →
        busyStep s = { t with
          primitive := true
          search := { t.search with resultTaps := t.test.t, verified := true }
          op := .idle, doneBit := true, err := .ok }) ∧
      (¬ (t.det.repeated = false ∧ t.det.seenCount = t.det.ncap) →
        t.search.searchI = BitVec.ofNat 32 (2 ^ (t.test.m - 1) - 1) →
        busyStep s = { t with
          primitive := false
          search := { t.search with resultTaps := fallbackTaps t.test.m, fallback := true }
          op := .idle, doneBit := true, err := .ok }) ∧
      (¬ (t.det.repeated = false ∧ t.det.seenCount = t.det.ncap) →
        t.search.searchI ≠ BitVec.ofNat 32 (2 ^ (t.test.m - 1) - 1) →
        busyStep s = { t with
          search := { t.search with searchI := t.search.searchI + 1#32 }
          test := testEngine t.test.m (cand t.test.m (t.search.searchI + 1#32))
          det := detStart t.test.m t.det })) ∧
    (busyStep s).traced = s.traced ∧ (busyStep s).live = s.live ∧
    (∀ a, Memory.read (busyStep s).ks.buf a = Memory.read s.ks.buf a)

/-- R188: from every state of the invariant, the busy step that completes a SEARCH leaves a result that contains tap m-1 and
has no tap at or above m. -/
def Obligations.SearchResultHoldsTheTopTap : Prop :=
  ∀ s : State, Inv s → s.op = .search → (busyStep s).op = .idle →
    (busyStep s).search.resultTaps.getLsbD ((busyStep s).test.m - 1) = true ∧
    (busyStep s).search.resultTaps.toNat < 2 ^ (busyStep s).test.m ∧
    ((busyStep s).search.verified = true ↔ (busyStep s).primitive = true) ∧
    ((busyStep s).search.fallback = true ↔ (busyStep s).primitive = false)

/-- R181, R184, R186: SEARCH returns the first candidate, in ascending index, that passes the test, and ends as R186 says. -/
def Obligations.SearchReturnsTheFirstPassingCandidate : Prop :=
  ∀ (s : State) (i : Nat), Inv s → s.op = .idle →
    2 ≤ s.conf.width.toNat → s.conf.width.toNat ≤ s.mmax →
    1 ≤ i → i ≤ 2 ^ (s.conf.width.toNat - 1) - 1 →
    Passes s.conf.width.toNat (cand s.conf.width.toNat (BitVec.ofNat 32 i)) →
    (∀ j, 1 ≤ j → j < i →
      ¬ Passes s.conf.width.toNat (cand s.conf.width.toNat (BitVec.ofNat 32 j))) →
    ∃ t n, exec .search s = .next t ∧ n ≤ i * 2 ^ s.conf.width.toNat ∧
      ∃ u, u = busySteps n t ∧ u.op = .idle ∧ u.doneBit = true ∧ u.err = .ok ∧
        u.search = { searchI := BitVec.ofNat 32 i
                     resultTaps := cand s.conf.width.toNat (BitVec.ofNat 32 i)
                     verified := true, fallback := false } ∧
        u.primitive = true ∧
        u.test.t = cand s.conf.width.toNat (BitVec.ofNat 32 i) ∧
        u.test.r = mask s.conf.width.toNat ∧
        u.det.cycle.toNat = 2 ^ s.conf.width.toNat - 1 ∧ u.det.repeated = false ∧
        u.live = s.live ∧ u.conf = s.conf ∧ u.ks = s.ks ∧ u.traced = s.traced

/-! ## The keystream -/

/-- R200 at acceptance: GENKS clears KSLEN and starts the detector at the loaded engine's own width, from its current state;
without a loaded engine it fails with NotLoaded and changes nothing else. -/
def Obligations.GenksStartsOnTheLoadedEngine : Prop :=
  decode 0x00000005#32 = .command .genks ∧
  ∀ s : State, s.op = .idle →
    (s.loaded = true → exec .genks s = .next { s with
        ks := { s.ks with len := 0#32 }
        det := detStart s.live.m s.det
        op := .genks, doneBit := false, err := .ok, rejected := false }) ∧
    (s.loaded = false →
      exec .genks s = .next { s with doneBit := true, err := .notLoaded, rejected := false })

/-- R203, R205, R206: a GENKS busy step that clocks writes the output bit at index CYCLE of KSBUF and nowhere else, updates
ONES, LAST_OUT and LAST_FB, and emits one trace record. -/
def Obligations.GenksBusyStepStoresOneBit : Prop :=
  ∀ s t : State, ∀ k st : Word, ∀ fb out : Bool, s.op = .genks →
    detIter .live s = (.clocked k st fb out, t) →
    k = s.det.cycle ∧
    (∀ a, Memory.read (busyStep s).ks.buf a =
      if a = s.det.cycle.toNat then BitVec.ofBool out else Memory.read s.ks.buf a) ∧
    busyStep s = { t with
      ks := { s.ks with buf := (busyStep s).ks.buf }
      det := { t.det with ones := s.det.ones || out }
      lastOut := out, lastFb := fb
      traced := s.traced ++ [{ k := k, s := st, fb := fb, out := out }] }

/-- R204: the busy step that ends a GENKS leaves KSLEN = CYCLE and OK, or, where no output bit was 1, KSLEN = 0 and
DegenerateKeystream. Nothing else is undone. -/
def Obligations.GenksCompletes : Prop :=
  ∀ s t : State, ∀ res : DetResult, s.op = .genks → detIter .live s = (res, t) →
    res = .cap ∨ res = .repeated →
    (s.det.ones = false → busyStep s = { t with
      ks := { s.ks with len := 0#32 }, op := .idle, doneBit := true
      err := .degenerateKeystream }) ∧
    (s.det.ones = true → busyStep s = { t with
      ks := { s.ks with len := s.det.cycle }, op := .idle, doneBit := true, err := .ok })

/-- R203 to R207, R210: a whole GENKS. If the run from E's current state stops at CYCLE = c, it takes exactly c + 1 busy
steps; KSBUF holds the c output bits in order, c trace records are emitted, and E is advanced by c clocks. -/
def Obligations.GenksRunProducesOnePeriod : Prop :=
  ∀ (s : State) (c : Nat), Inv s → s.op = .idle → s.loaded = true → StopsAt s.live c →
    ∃ t, exec .genks s = .next t ∧
      (∀ n, n ≤ c → (busySteps n t).op = .genks) ∧
      ∃ u, u = busySteps (c + 1) t ∧ u.op = .idle ∧ u.doneBit = true ∧
        u.det.cycle.toNat = c ∧ u.live = orbit s.live c ∧
        (∀ k, k < c → Memory.read u.ks.buf k = BitVec.ofBool (output (orbit s.live k))) ∧
        (∀ k, c ≤ k → Memory.read u.ks.buf k = Memory.read s.ks.buf k) ∧
        u.traced = s.traced ++ (List.range c).map (recordAt s.live) ∧
        ((∃ k, k < c ∧ output (orbit s.live k) = true) → u.err = .ok ∧ u.ks.len.toNat = c) ∧
        ((∀ k, k < c → output (orbit s.live k) = false) →
          u.err = .degenerateKeystream ∧ u.ks.len = 0#32) ∧
        u.test = s.test ∧ u.search = s.search ∧ u.primitive = s.primitive ∧ u.conf = s.conf

/-- R208: GENKS ends with DegenerateKeystream iff E.r = 0 at acceptance; from E.r = 0 the run is one clock, with CYCLE = 1,
REPEAT = 1 and REPEAT_FIRST = 0. -/
def Obligations.DegenerateIffZeroStart : Prop :=
  ∀ s : State, Inv s → s.op = .idle → s.loaded = true →
    ∃ t n, exec .genks s = .next t ∧ n ≤ 2 ^ s.live.m ∧
      ∃ u, u = busySteps n t ∧ u.op = .idle ∧ u.doneBit = true ∧
        (u.err = .degenerateKeystream ↔ s.live.r = 0#32) ∧
        (u.err = .ok ↔ s.live.r ≠ 0#32) ∧
        (s.live.r = 0#32 → n = 2 ∧ u.det.cycle = 1#32 ∧ u.det.repeated = true ∧
          u.det.repeatFirst = 0#32 ∧ u.ks.len = 0#32)

/-- R209, R169: with tap m-1, a completed GENKS leaves the live engine as it found it, so that a second one starts where the
first did. (The zero state, which R209 leaves out, returns too: it is fixed, R150.) -/
def Obligations.GenksWithTopTapReturnsToItsStart : Prop :=
  ∀ s : State, Inv s → s.op = .idle → s.loaded = true →
    s.live.t.getLsbD (s.live.m - 1) = true →
    ∃ t n, exec .genks s = .next t ∧ n ≤ 2 ^ s.live.m ∧ (busySteps n t).op = .idle ∧
      (busySteps n t).doneBit = true ∧ (busySteps n t).live = s.live

/-- R205: KSBUF is written by the GENKS busy step alone, and there only at index CYCLE. (Reset leaves its contents
unspecified, R61, and is left out here.) -/
def Obligations.OnlyGenksWritesTheBuffer : Prop :=
  ∀ s t : State, step s = .next t → s.events.head? ≠ some .reset →
    ∀ a, Memory.read t.ks.buf a ≠ Memory.read s.ks.buf a →
      s.op = .genks ∧ a = s.det.cycle.toNat

/-- R206, R400: every step, reset among them, keeps the records already emitted; a new one is emitted only by a clock of a
running GENKS, with that clock's cycle index, state before the shift, feedback and output. -/
def Obligations.TraceGrowsByGenksClocksOnly : Prop :=
  ∀ s t : State, step s = .next t →
    t.traced = s.traced ∨
    (s.op = .genks ∧ t.live = shiftStep s.live ∧ t.traced = s.traced ++
      [{ k := s.det.cycle, s := s.live.r, fb := feedback s.live, out := output s.live }])

/-- R407: a keystream stays readable: a step changes KSLEN, or any bit below KSLEN, only as the acceptance of a GENKS, as a
busy step of GENKS, or as reset; while GENKS runs every KSDATA read is 0. -/
def Obligations.KeystreamStaysReadable : Prop :=
  (∀ s t : State, step s = .next t → s.op ≠ .genks → s.events.head? ≠ some .reset →
    (∀ w rest, s.events = wr .CMD w :: rest → decode w ≠ .command .genks) → t.ks = s.ks) ∧
  (∀ s : State, Inv s → s.op = .genks → hostRead s 0x34 = 0#32 ∧ hostRead s 0x38 = 0#32)

/-! ## The register window -/

/-- R42: the STATUS word, field by field, with the completion codes of R300; bits 7 and 31:12 read 0; a host write to STATUS is
ignored; right after reset it reads 0. -/
def Obligations.StatusFields : Prop :=
  (∀ s : State, ∀ v : Word, v = hostRead s 0x04 →
    v.getLsbD 0 = decide (s.op ≠ .idle) ∧ v.getLsbD 1 = s.doneBit ∧ v.getLsbD 2 = s.loaded ∧
    v.getLsbD 3 = s.rejected ∧ v.extractLsb' 4 3 = s.err.bits ∧ v.getLsbD 7 = false ∧
    v.getLsbD 8 = s.primitive ∧ v.getLsbD 9 = s.search.verified ∧
    v.getLsbD 10 = s.search.fallback ∧ v.getLsbD 11 = s.det.repeated ∧
    (∀ i, 12 ≤ i → v.getLsbD i = false)) ∧
  (∀ (s : State) (v : Word) (rest : List Event), s.events = wr .STATUS v :: rest →
    step s = .next { s with events := rest }) ∧
  hostRead State.reset 0x04 = 0#32 ∧
  ErrCode.ok.bits = 0#3 ∧ ErrCode.invalidConfig.bits = 1#3 ∧ ErrCode.degenerateKeystream.bits = 2#3 ∧
  ErrCode.illegalCommand.bits = 3#3 ∧ ErrCode.notLoaded.bits = 4#3 ∧ ErrCode.cancelled.bits = 5#3

/-- R50: the ENGINE word, field by field; NEXT_FB is the parity of E.r & E.t; reserved bits read 0. -/
def Obligations.EngineFields : Prop :=
  (∀ s : State, ∀ v : Word, Inv s → v = hostRead s 0x20 →
    v.getLsbD 0 = s.lastOut ∧ v.getLsbD 1 = s.lastFb ∧
    v.getLsbD 2 = parity (s.live.r &&& s.live.t) ∧
    (∀ i, 3 ≤ i → i ≤ 7 → v.getLsbD i = false) ∧
    (v.extractLsb' 8 8).toNat = s.live.m ∧ (v.extractLsb' 16 8).toNat = s.test.m ∧
    (∀ i, 24 ≤ i → v.getLsbD i = false)) ∧
  hostRead State.reset 0x20 = 0#32

/-- R56: KSDATA is the keystream bit at KSADDR where KSADDR < KSLEN, and 0 otherwise; reading it changes nothing of the block
(the host's own list of what its reads returned, assumption log 4, is left out here). -/
def Obligations.KsdataReadsBelowKslen : Prop :=
  ∀ s : State,
    (s.conf.ksaddr.toNat < s.ks.len.toNat →
      hostRead s 0x38 = BitVec.setWidth 32 (Memory.read s.ks.buf s.conf.ksaddr.toNat)) ∧
    (s.ks.len.toNat ≤ s.conf.ksaddr.toNat → hostRead s 0x38 = 0#32) ∧
    (∀ rest, s.events = rd .KSDATA :: rest →
      ∃ t, t = { s with events := rest, reads := t.reads } ∧ step s = .next t)

/-- R47: PARAM holds MMAX in bits 7:0 and 0 above; no step, reset included, changes it, and a write to it is ignored. -/
def Obligations.ParamIsConstant : Prop :=
  (∀ s : State, s.mmax ≤ 30 → (hostRead s 0x44).toNat = s.mmax) ∧
  (∀ s t : State, step s = .next t → t.mmax = s.mmax) ∧
  (∀ (s : State) (v : Word) (rest : List Event), s.events = wr .PARAM v :: rest →
    step s = .next { s with events := rest })

/-- R72, with the register table of R40: a defined read returns the register at its offset (reserved offsets and CMD give
0) and changes nothing of the block. (That the value is listed in `reads` is the model's own form: assumption log 4.) -/
def Obligations.HostReadReturnsTheRegister : Prop :=
  ∀ s : State,
    (∀ off rest, off % 4 = 0 → off ≤ 0xFC →
      s.events = .access { bits := 32, off := off, kind := .read } :: rest →
      step s = .next { s with events := rest, reads := s.reads ++ [(off, hostRead s off)] }) ∧
    hostRead s 0x00 = 0#32 ∧ hostRead s 0x04 = statusWord s ∧ hostRead s 0x08 = s.conf.width ∧
    hostRead s 0x0C = s.conf.seed ∧ hostRead s 0x10 = s.conf.taps ∧
    hostRead s 0x14 = s.conf.ksaddr ∧ hostRead s 0x18 = s.live.r ∧ hostRead s 0x1C = s.live.t ∧
    hostRead s 0x20 = engineWord s ∧ hostRead s 0x24 = s.det.cycle ∧
    hostRead s 0x28 = s.det.repeatFirst ∧ hostRead s 0x2C = s.search.searchI ∧
    hostRead s 0x30 = s.search.resultTaps ∧ hostRead s 0x34 = s.ks.len ∧
    hostRead s 0x38 = keystreamData s ∧ hostRead s 0x3C = s.test.r ∧ hostRead s 0x40 = s.test.t ∧
    (∀ off, 0x48 ≤ off → hostRead s off = 0#32)

/-- R73, R29, R59: a defined write to WIDTH, SEED, TAPS or KSADDR stores all 32 bits in every state, busy or idle; a write
anywhere else but CMD is ignored. -/
def Obligations.HostWriteStoresConfiguration : Prop :=
  ∀ (s : State) (v : Word) (rest : List Event),
    (s.events = wr .WIDTH v :: rest →
      step s = .next { s with events := rest, conf := { s.conf with width := v } }) ∧
    (s.events = wr .SEED v :: rest →
      step s = .next { s with events := rest, conf := { s.conf with seed := v } }) ∧
    (s.events = wr .TAPS v :: rest →
      step s = .next { s with events := rest, conf := { s.conf with taps := v } }) ∧
    (s.events = wr .KSADDR v :: rest →
      step s = .next { s with events := rest, conf := { s.conf with ksaddr := v } }) ∧
    (∀ off, off % 4 = 0 → off ≤ 0xFC → off ≠ 0x00 → off ≠ 0x08 → off ≠ 0x0C → off ≠ 0x10 →
      off ≠ 0x14 → s.events = .access { bits := 32, off := off, kind := .write v } :: rest →
      step s = .next { s with events := rest })

/-- R74: an access of another width, at an offset that is no multiple of 4, or at or above 0x100 is refused; every other
event has a next state. -/
def Obligations.UndefinedAccessesAreRefused : Prop :=
  ∀ s : State,
    (∀ a rest, s.events = .access a :: rest → a.bits ≠ 32 ∨ a.off % 4 ≠ 0 ∨ 0x100 ≤ a.off →
      ∃ r, step s = .refused r) ∧
    ((∀ a rest, s.events = .access a :: rest → a.bits = 32 ∧ a.off % 4 = 0 ∧ a.off < 0x100) →
      ∃ t, step s = .next t)

/-- R129, R406: a configuration write while busy is stored and has no effect on the running command: a busy step neither
reads nor writes the configuration registers. -/
def Obligations.RunningCommandIgnoresConfiguration : Prop :=
  ∀ (s : State) (c : ConfigRegs),
    busyStep { s with conf := c } = { busyStep s with conf := c } ∧ (busyStep s).conf = s.conf

/-- R105: what each command reads at acceptance. CHECK does not read SEED or KSADDR, SEARCH only WIDTH, LOAD not KSADDR, and
NOP, SHIFT, GENKS and CANCEL none of the configuration registers. -/
def Obligations.CommandsReadOnlyTheirOperands : Prop :=
  ∀ (i : Instr) (s : State) (c : ConfigRegs),
    (i = .load → c.width = s.conf.width ∧ c.seed = s.conf.seed ∧ c.taps = s.conf.taps) →
    (i = .check → c.width = s.conf.width ∧ c.taps = s.conf.taps) →
    (i = .search → c.width = s.conf.width) →
    ∃ t, exec i s = .next t ∧ exec i { s with conf := c } = .next { t with conf := c }

/-! ## Reset, idle, waiting -/

/-- R60: the machine right after reset, with MMAX the open parameter of R6. -/
def Obligations.ResetValues : Prop :=
  State.reset.live = { m := 0, r := 0#32, t := 0#32 } ∧
  State.reset.test = { m := 0, r := 0#32, t := 0#32 } ∧
  State.reset.loaded = false ∧ State.reset.lastOut = false ∧ State.reset.lastFb = false ∧
  State.reset.op = .idle ∧ State.reset.doneBit = false ∧ State.reset.err = .ok ∧
  State.reset.rejected = false ∧ State.reset.det.seenCount = 0#32 ∧
  State.reset.det.cycle = 0#32 ∧ State.reset.det.ncap = 0#32 ∧
  State.reset.det.repeated = false ∧ State.reset.det.repeatFirst = 0#32 ∧
  State.reset.det.ones = false ∧ State.reset.primitive = false ∧
  State.reset.search =
    { searchI := 0#32, resultTaps := 0#32, verified := false, fallback := false } ∧
  State.reset.conf = { width := 0#32, seed := 0#32, taps := 0#32, ksaddr := 0#32 } ∧
  State.reset.ks.len = 0#32 ∧ State.reset.traced = [] ∧
  2 ≤ State.reset.mmax ∧ State.reset.mmax ≤ 30

/-- R400: reset, in any state, gives every element of R60's table its reset value in one step; a running command is
abandoned without completion; the emitted records and the constant MMAX stay. (The contents of the seen-state table and
of KSBUF are unspecified after reset, R61, and nothing is said of them. That the host's own events and reads stay is the
model's choice: assumption log 7.) -/
def Obligations.ResetAbandonsEverything : Prop :=
  ∀ (s : State) (rest : List Event), s.events = .reset :: rest →
    ∃ t, step s = .next t ∧
      t = { State.resetAt s.mmax with
        det := { (State.resetAt s.mmax).det with
          seenValid := t.det.seenValid, seenIdx := t.det.seenIdx }
        ks := { buf := t.ks.buf, len := 0#32 }
        traced := s.traced, events := rest, reads := s.reads }

/-- R401, R22: after reset the block is idle and takes no step of its own; until a LOAD succeeds SHIFT and GENKS fail with
NotLoaded, until WIDTH is written LOAD, CHECK and SEARCH fail with InvalidConfig, and only a LOAD sets LOADED. -/
def Obligations.AfterResetOnlyConfigurationHelps : Prop :=
  (step State.reset = .next State.reset) ∧
  (∀ (i : Instr) (s : State), s.op = .idle → s.loaded = false → i = .shift ∨ i = .genks →
    exec i s = .next { s with doneBit := true, err := .notLoaded, rejected := false }) ∧
  (∀ (i : Instr) (s : State), s.op = .idle → s.conf.width = 0#32 →
    i = .load ∨ i = .check ∨ i = .search →
    exec i s = .next { s with doneBit := true, err := .invalidConfig, rejected := false }) ∧
  (∀ s t : State, step s = .next t → s.loaded = false → t.loaded = true →
    ∃ w rest, s.events = wr .CMD w :: rest ∧ decode w = .command .load)

/-- R127, R128: an idle block keeps its state, when its turn comes and when no event is left; a busy block takes its busy
step in both cases. `wait` (R107) gives the block busy steps until BUSY reads 0. (That the block runs on once no event is
left, and that the polling reads are not listed, are the model's choices: assumption log 2 and 4.) -/
def Obligations.IdleBlockKeepsItsState : Prop :=
  ∀ (s : State) (rest : List Event),
    (s.events = [] → step s = .next (busyStep s)) ∧
    (s.events = .busy :: rest → step s = .next (busyStep { s with events := rest })) ∧
    (s.op = .idle → busyStep s = s) ∧
    (s.events = .wait :: rest → s.op ≠ .idle → step s = .next (busyStep s)) ∧
    (s.events = .wait :: rest → s.op = .idle → step s = .next { s with events := rest })

/-! ## Whole-machine properties -/

/-- The invariant holds right after reset (R60, R6). -/
def Obligations.ResetMeetsTheInvariant : Prop := Inv State.reset

/-- The invariant (R6, R21, R22, R25, R26, R28, R30, R164, R404) is kept by every step, from every state that meets it. -/
def Obligations.StepKeepsTheInvariant : Prop :=
  ∀ s t : State, Inv s → step s = .next t → Inv t

/-- R404: while BUSY = 1 the result fields of the running command read as cleared through the window. -/
def Obligations.ResultsReadAsClearedWhileBusy : Prop :=
  ∀ s : State, Inv s →
    (s.op ≠ .idle → (hostRead s 0x04).getLsbD 0 = true ∧ (hostRead s 0x04).getLsbD 1 = false ∧
      (hostRead s 0x04).extractLsb' 4 3 = 0#3) ∧
    (s.op = .check → (hostRead s 0x04).getLsbD 8 = false) ∧
    (s.op = .search → (hostRead s 0x04).getLsbD 8 = false ∧ (hostRead s 0x04).getLsbD 9 = false ∧
      (hostRead s 0x04).getLsbD 10 = false ∧ hostRead s 0x30 = 0#32) ∧
    (s.op = .genks → hostRead s 0x34 = 0#32)

/-- R128, R173, R210, R410: from every state of the invariant, a running CHECK or GENKS completes within `2^m` busy steps. -/
def Obligations.CheckAndGenksFinish : Prop :=
  ∀ s : State, Inv s → s.op = .check ∨ s.op = .genks →
    ∃ n, n ≤ 2 ^ runWidth s ∧ (busySteps n s).op = .idle ∧ (busySteps n s).doneBit = true

/-- R128, R190, R410: from every state of the invariant, a running SEARCH completes within `(2^(m-1) - 1) * 2^m` busy
steps. -/
def Obligations.SearchFinishes : Prop :=
  ∀ s : State, Inv s → s.op = .search →
    ∃ n, n ≤ (2 ^ (s.test.m - 1) - 1) * 2 ^ s.test.m ∧
      (busySteps n s).op = .idle ∧ (busySteps n s).doneBit = true

/-- R61: the unspecified contents of the seen-state table and of KSBUF are never observable: two states that differ only in
them give the same value at every register, and every step takes them to states that again differ only there. -/
def Obligations.UnspecifiedContentsAreUnobservable : Prop :=
  ∀ s t : State, Alike s t →
    (∀ off, hostRead t off = hostRead s off) ∧ AnswersAlike (step s) (step t)
end

