-- ==== Sys2Proof/Laws/Word.lean ====
section
/-!
SUPPORT. The laws of words: masks, operand checks, parity.
-/
namespace Sys2Proof.Machine

/-- A word lies below `2^m` iff all its bits at and above `m` are 0 (R11). -/
theorem toNat_lt_iff (v : Word) (m : Nat) : v.toNat < 2 ^ m ↔ ∀ i, m ≤ i → v.getLsbD i = false := by
  constructor
  · intro h i hi
    exact Nat.testBit_lt_two_pow (Nat.lt_of_lt_of_le h (Nat.pow_le_pow_right (by decide) hi))
  · intro h
    exact Nat.lt_pow_two_of_testBit _ fun i hi => h i hi

@[simp] theorem getLsbD_mask (m i : Nat) :
    (mask m).getLsbD i = (decide (i < 32) && decide (i < m)) := by
  rw [mask, BitVec.getLsbD_ofNat, Nat.testBit_two_pow_sub_one]

theorem mask_lt (m : Nat) : (mask m).toNat < 2 ^ m := by
  rw [toNat_lt_iff]
  intro i hi
  simp; omega

theorem toNat_mask (m : Nat) (h : m ≤ 32) : (mask m).toNat = 2 ^ m - 1 := by
  have h2 : 2 ^ m ≤ 2 ^ 32 := Nat.pow_le_pow_right (by decide) h
  have h3 : 0 < 2 ^ m := Nat.two_pow_pos m
  rw [mask, BitVec.toNat_ofNat, Nat.mod_eq_of_lt (by omega)]

/-- `valid_mask` (R130): no bit at or above `m`. -/
theorem validMask_iff (v : Word) (m : Nat) : validMask v m = true ↔ v.toNat < 2 ^ m := by
  rw [validMask, beq_iff_eq, toNat_lt_iff]
  constructor
  · intro h i hi
    have := congrArg (fun x => x.getLsbD (i - m)) h
    simpa [BitVec.getLsbD_ushiftRight, Nat.add_sub_cancel' hi] using this
  · intro h
    apply BitVec.eq_of_getLsbD_eq
    intro i _
    simp [BitVec.getLsbD_ushiftRight, h (m + i) (by omega)]

theorem validWidth_iff (s : State) :
    validWidth s = true ↔ 2 ≤ s.conf.width.toNat ∧ s.conf.width.toNat ≤ s.mmax := by
  simp [validWidth]

/-- An operand that passed its check is taken as it stands. -/
theorem lowBits_of_lt (v : Word) (m : Nat) (h : v.toNat < 2 ^ m) : lowBits v m = v := by
  rw [toNat_lt_iff] at h
  apply BitVec.eq_of_getLsbD_eq
  intro i hi
  rw [lowBits, BitVec.getLsbD_and, getLsbD_mask]
  by_cases him : i < m
  · simp [hi, him]
  · simp [h i (by omega)]

theorem lowBits_lt (v : Word) (m : Nat) : (lowBits v m).toNat < 2 ^ m := by
  rw [toNat_lt_iff]
  intro i hi
  rw [lowBits, BitVec.getLsbD_and, getLsbD_mask]
  simp; omega

/-! ## Parity (R12) -/

theorem parityBelow_xor (a b : Word) (n : Nat) :
    parityBelow (a ^^^ b) n = xor (parityBelow a n) (parityBelow b n) := by
  induction n with
  | zero => rfl
  | succ n ih =>
    simp only [parityBelow, ih, BitVec.getLsbD_xor]
    cases parityBelow a n <;> cases parityBelow b n <;> cases a.getLsbD n <;> cases b.getLsbD n <;> rfl

@[simp] theorem parityBelow_zero (n : Nat) : parityBelow 0#32 n = false := by
  induction n with
  | zero => rfl
  | succ n ih => simp [parityBelow, ih]

theorem parity_xor (a b : Word) : parity (a ^^^ b) = xor (parity a) (parity b) :=
  parityBelow_xor a b 32

@[simp] theorem parity_zero : parity 0#32 = false := parityBelow_zero 32

/-- Bits at and above the width add nothing to the parity. -/
theorem parityBelow_of_lt (v : Word) (m : Nat) (h : v.toNat < 2 ^ m) (n : Nat) (hn : m ≤ n) :
    parityBelow v n = parityBelow v m := by
  rw [toNat_lt_iff] at h
  induction n, hn using Nat.le_induction with
  | base => rfl
  | succ n hn ih => rw [parityBelow, ih, h n hn, Bool.xor_false]

theorem parity_of_lt (v : Word) (m : Nat) (h : v.toNat < 2 ^ m) (hm : m ≤ 32) :
    parity v = parityBelow v m := parityBelow_of_lt v m h 32 hm

theorem parityBelow_eq_foldl (v : Word) (n : Nat) :
    parityBelow v n = (List.range n).foldl (fun b j => xor b (v.getLsbD j)) false := by
  induction n with
  | zero => rfl
  | succ n ih => rw [parityBelow, ih, List.range_succ, List.foldl_append]; rfl

theorem parityBelow_congr (a b : Word) (n : Nat) (h : ∀ i, i < n → a.getLsbD i = b.getLsbD i) :
    parityBelow a n = parityBelow b n := by
  induction n with
  | zero => rfl
  | succ n ih => rw [parityBelow, parityBelow, ih fun i hi => h i (by omega), h n (by omega)]

@[simp] theorem getLsbD_bitWord (b : Bool) (i : Nat) :
    (bitWord b).getLsbD i = (decide (i = 0) && b) := by
  cases b <;> simp [bitWord]

theorem and_lt_of_right (a b : Word) (m : Nat) (h : b.toNat < 2 ^ m) : (a &&& b).toNat < 2 ^ m := by
  rw [BitVec.toNat_and]
  exact Nat.lt_of_le_of_lt Nat.and_le_right h

/-! ## Candidates (R180 to R182) -/

theorem getLsbD_twoPow (k j : Nat) (hk : k < 32) :
    (BitVec.ofNat 32 (2 ^ k)).getLsbD j = decide (j = k) := by
  rw [BitVec.getLsbD_ofNat, Nat.testBit_two_pow]
  by_cases h : j = k
  · simp [h, hk]
  · simp [h, Ne.symm h]

/-- Every candidate of a legal index holds the top tap and lies within the width. -/
theorem cand_lt (m : Nat) (i : Word) (hm : 1 ≤ m) (hm32 : m ≤ 32) (hi : i.toNat < 2 ^ (m - 1)) :
    (cand m i).toNat < 2 ^ m := by
  rw [toNat_lt_iff] at hi ⊢
  intro j hj
  rw [cand, BitVec.getLsbD_or, getLsbD_twoPow _ _ (by omega), hi j (by omega)]
  simp; omega

theorem fallbackTaps_lt (m : Nat) (hm : 2 ≤ m) (hm32 : m ≤ 32) :
    (fallbackTaps m).toNat < 2 ^ m := by
  rw [toNat_lt_iff]
  intro j hj
  rw [fallbackTaps, BitVec.getLsbD_or, getLsbD_twoPow _ _ (by omega), getLsbD_twoPow _ _ (by omega)]
  simp; omega

theorem toNat_lastCandidate (m : Nat) (hm32 : m ≤ 32) :
    (lastCandidate m).toNat = 2 ^ (m - 1) - 1 := by
  have h2 : 2 ^ (m - 1) ≤ 2 ^ 32 := Nat.pow_le_pow_right (by decide) (by omega)
  have h3 : 0 < 2 ^ (m - 1) := Nat.two_pow_pos _
  rw [lastCandidate, BitVec.toNat_ofNat, Nat.mod_eq_of_lt (by omega)]

end Sys2Proof.Machine
end

