-- ==== Sys2Proof/Laws/Engine.lean ====
section
/-!
SUPPORT. The laws of the engine clock: what ShiftStep does to each bit, and what it keeps (spec/41_engine.md R142, R143,
R150), over any number of clocks.
-/
namespace Sys2Proof.Machine

@[simp] theorem shiftStep_m (x : Engine) : (shiftStep x).m = x.m := rfl
@[simp] theorem shiftStep_t (x : Engine) : (shiftStep x).t = x.t := rfl

/-- ShiftStep, bit by bit (R142). -/
theorem getLsbD_shiftStep (x : Engine) (i : Nat) :
    (shiftStep x).r.getLsbD i =
      ((decide (i < 32) && decide (1 ≤ i) && decide (i < x.m) && x.r.getLsbD (i - 1)) ||
        (decide (i = 0) && feedback x)) := by
  show (((x.r <<< 1) &&& mask x.m) ||| bitWord (feedback x)).getLsbD i = _
  rw [BitVec.getLsbD_or, BitVec.getLsbD_and, BitVec.getLsbD_shiftLeft, getLsbD_mask, getLsbD_bitWord]
  by_cases h0 : i = 0
  · simp [h0]
  · have h1 : ¬ i < 1 := by omega
    have h2 : 1 ≤ i := by omega
    by_cases h32 : i < 32 <;> by_cases hm : i < x.m <;> simp [h0, h1, h2, h32, hm]

/-- ShiftStep keeps the register below `2^m` (R143). -/
theorem shiftStep_lt (x : Engine) (hm : 1 ≤ x.m) : (shiftStep x).r.toNat < 2 ^ x.m := by
  rw [toNat_lt_iff]
  intro i hi
  rw [getLsbD_shiftStep]
  have h0 : i ≠ 0 := by omega
  have h1 : ¬ i < x.m := by omega
  simp [h0, h1]

theorem feedback_of_r_zero (x : Engine) (h : x.r = 0#32) : feedback x = false := by
  rw [feedback, h, BitVec.zero_and, parity_zero]

theorem output_of_r_zero (x : Engine) (h : x.r = 0#32) : output x = false := by
  rw [output, h, BitVec.getLsbD_zero]

/-- The zero state is fixed (R150). -/
theorem shiftStep_of_r_zero (x : Engine) (h : x.r = 0#32) : shiftStep x = x := by
  have hr : (shiftStep x).r = x.r := by
    apply BitVec.eq_of_getLsbD_eq
    intro i _
    rw [getLsbD_shiftStep, feedback_of_r_zero x h, h]
    simp
  cases x
  simp only [shiftStep] at hr ⊢
  rw [hr]

/-- ShiftStep keeps the engine invariant (R21). -/
theorem shiftStep_ok (mmax : Nat) (x : Engine) (h : x.Ok mmax) : (shiftStep x).Ok mmax := by
  refine ⟨h.width, ?_, h.taps⟩
  rcases Nat.eq_zero_or_pos x.m with hm | hm
  · have hr : x.r = 0#32 := by
      have := h.state
      rw [hm] at this
      exact BitVec.eq_of_toNat_eq (by simpa using this)
    rw [shiftStep_of_r_zero x hr]
    exact h.state
  · exact shiftStep_lt x hm

/-! ## Any number of clocks -/

@[simp] theorem orbit_m (x : Engine) (k : Nat) : (orbit x k).m = x.m := by
  induction k with
  | zero => rfl
  | succ k ih => rw [orbit, shiftStep_m, ih]

@[simp] theorem orbit_t (x : Engine) (k : Nat) : (orbit x k).t = x.t := by
  induction k with
  | zero => rfl
  | succ k ih => rw [orbit, shiftStep_t, ih]

theorem orbit_ok (mmax : Nat) (x : Engine) (h : x.Ok mmax) (k : Nat) : (orbit x k).Ok mmax := by
  induction k with
  | zero => exact h
  | succ k ih => exact shiftStep_ok mmax _ ih

/-- The trajectory from the state after one clock is the trajectory one clock on. -/
theorem orbit_shiftStep (x : Engine) (k : Nat) : orbit (shiftStep x) k = orbit x (k + 1) := by
  induction k with
  | zero => rfl
  | succ k ih => rw [orbit, ih]; rfl

theorem orbit_add (x : Engine) (j k : Nat) : orbit (orbit x j) k = orbit x (j + k) := by
  induction k with
  | zero => rfl
  | succ k ih => rw [orbit, ih]; rfl

/-- An engine of the trajectory is known by its register. -/
theorem orbit_eq_iff (x : Engine) (i j : Nat) :
    orbit x i = orbit x j ↔ orbitState x i = orbitState x j := by
  constructor
  · intro h; rw [orbitState, orbitState, h]
  · intro h
    have hm : (orbit x i).m = (orbit x j).m := by simp
    have ht : (orbit x i).t = (orbit x j).t := by simp
    have hr : (orbit x i).r = (orbit x j).r := h
    revert hm ht hr
    cases orbit x i
    cases orbit x j
    simp +contextual

/-! ## Busy steps -/

theorem busySteps_add (m n : Nat) (s : State) : busySteps (m + n) s = busySteps n (busySteps m s) := by
  induction m generalizing s with
  | zero => rw [Nat.zero_add]; rfl
  | succ m ih => rw [Nat.succ_add]; exact ih (busyStep s)

theorem busySteps_succ (n : Nat) (s : State) : busySteps (n + 1) s = busyStep (busySteps n s) :=
  busySteps_add n 1 s

end Sys2Proof.Machine
end

