-- ==== Sys2Proof/Laws/Memory.lean ====
section
/-!
SUPPORT. The laws of the indexed stores: read after write, and that every write keeps the canonical form.
-/
namespace Sys2Proof.Machine.Memory

variable {w : Nat}

@[simp] theorem read_nil (a : Nat) : read ([] : Memory w) a = 0#w := rfl

theorem read_cons (k : Nat) (v : BitVec w) (m : Memory w) (a : Nat) :
    read ((k, v) :: m) a = if k = a then v else read m a := rfl

theorem wf_cons (k : Nat) (v : BitVec w) (m : Memory w) :
    wf ((k, v) :: m) = true ↔ v ≠ 0#w ∧ (∀ c ∈ m, k < c.1) ∧ wf m = true := by
  simp [wf, blank, and_assoc]

/-- An index that is not listed reads blank. -/
theorem read_of_not_listed (m : Memory w) (a : Nat) (h : ∀ c ∈ m, c.1 ≠ a) : read m a = 0#w := by
  induction m with
  | nil => rfl
  | cons c rest ih =>
    rw [read_cons, if_neg (h _ List.mem_cons_self)]
    exact ih fun c hc => h c (List.mem_cons_of_mem _ hc)

/-- Listing a value: what each index reads. -/
theorem read_list (m : Memory w) (a b : Nat) (v : BitVec w) :
    read (list m a v) b = if b = a then v else read m b := by
  induction m with
  | nil => simp [list, read_cons, eq_comm]
  | cons d rest ih =>
    obtain ⟨k, u⟩ := d
    rw [list]
    split
    · rw [read_cons]; simp [eq_comm]
    · split
      · rename_i hak
        subst hak
        rw [read_cons, read_cons]
        by_cases hb : a = b <;> simp [hb, eq_comm]
      · rename_i h1 h2
        rw [read_cons, read_cons, ih]
        by_cases hk : k = b
        · rw [if_pos hk, if_pos hk, if_neg (by omega)]
        · rw [if_neg hk, if_neg hk]

/-- Removing a listing: what each index reads. -/
theorem read_filter (m : Memory w) (a b : Nat) :
    read (m.filter fun c => c.1 != a) b = if b = a then 0#w else read m b := by
  induction m with
  | nil => simp
  | cons d rest ih =>
    obtain ⟨k, u⟩ := d
    by_cases hk : k = a
    · simp only [hk, bne_self_eq_false, Bool.false_eq_true, not_false_eq_true,
        List.filter_cons_of_neg, ih, read_cons]
      by_cases hb : b = a
      · simp [hb]
      · simp [hb, Ne.symm hb]
    · rw [List.filter_cons_of_pos (by simpa using hk), read_cons, read_cons, ih]
      by_cases hb : k = b
      · rw [if_pos hb, if_pos hb, if_neg (by omega)]
      · rw [if_neg hb, if_neg hb]

/-- Read after write: the written entry at the written index, every other entry as before. -/
theorem read_write (m : Memory w) (a b : Nat) (v : BitVec w) :
    read (write m a v) b = if b = a then v else read m b := by
  rw [write]
  split
  · rename_i hv
    rw [read_filter, hv, blank]
  · exact read_list m a b v

/-- The listed entries of a store with one more value are that value and old ones. -/
theorem mem_list (m : Memory w) (a : Nat) (v : BitVec w) (c : Nat × BitVec w)
    (h : c ∈ list m a v) : c = (a, v) ∨ c ∈ m := by
  induction m with
  | nil => exact .inl (List.mem_singleton.1 h)
  | cons d rest ih =>
    obtain ⟨k, u⟩ := d
    rw [list] at h
    split at h
    · exact List.mem_cons.1 h
    · split at h
      · exact (List.mem_cons.1 h).imp id (List.mem_cons_of_mem _)
      · rcases List.mem_cons.1 h with h | h
        · exact .inr (h ▸ List.mem_cons_self)
        · exact (ih h).imp id (List.mem_cons_of_mem _)

/-- Listing a value that is not blank keeps the canonical form. -/
theorem list_wf (m : Memory w) (a : Nat) (v : BitVec w) (hv : v ≠ 0#w) (h : wf m = true) :
    wf (list m a v) = true := by
  induction m with
  | nil => exact (wf_cons _ _ _).2 ⟨hv, by simp, rfl⟩
  | cons d rest ih =>
    obtain ⟨k, u⟩ := d
    obtain ⟨hu, hlt, hr⟩ := (wf_cons _ _ _).1 h
    rw [list]
    split
    · rename_i hak
      refine (wf_cons _ _ _).2 ⟨hv, fun c hc => ?_, h⟩
      rcases List.mem_cons.1 hc with rfl | hc
      · exact hak
      · exact Nat.lt_trans hak (hlt c hc)
    · split
      · rename_i hak
        exact (wf_cons _ _ _).2 ⟨hv, fun c hc => hak ▸ hlt c hc, hr⟩
      · rename_i h1 h2
        refine (wf_cons _ _ _).2 ⟨hu, fun c hc => ?_, ih hr⟩
        rcases mem_list rest a v c hc with rfl | hc
        · simp only; omega
        · exact hlt c hc

/-- Removing listings keeps the canonical form. -/
theorem filter_wf (m : Memory w) (a : Nat) (h : wf m = true) :
    wf (m.filter fun c => c.1 != a) = true := by
  induction m with
  | nil => rfl
  | cons d rest ih =>
    obtain ⟨k, u⟩ := d
    obtain ⟨hu, hlt, hr⟩ := (wf_cons _ _ _).1 h
    by_cases hk : k = a
    · rw [List.filter_cons_of_neg (by simpa using hk)]
      exact ih hr
    · rw [List.filter_cons_of_pos (by simpa using hk)]
      exact (wf_cons _ _ _).2 ⟨hu, fun c hc => hlt c (List.mem_of_mem_filter hc), ih hr⟩

/-- A write keeps the canonical form. -/
theorem write_wf (m : Memory w) (a : Nat) (v : BitVec w) (h : wf m = true) :
    wf (write m a v) = true := by
  rw [write]
  split
  · exact filter_wf m a h
  · exact list_wf m a v ‹_› h

/-- Writing an entry that is not blank at an index that reads blank lists one index more. -/
theorem length_write_of_blank (m : Memory w) (a : Nat) (v : BitVec w) (h : wf m = true)
    (hv : v ≠ 0#w) (ha : read m a = 0#w) : (write m a v).length = m.length + 1 := by
  have hv' : v ≠ blank := hv
  rw [write, if_neg hv']
  induction m with
  | nil => rfl
  | cons d rest ih =>
    obtain ⟨k, u⟩ := d
    obtain ⟨hu, hlt, hr⟩ := (wf_cons _ _ _).1 h
    rw [list]
    split
    · rfl
    · split
      · rename_i hak
        rw [read_cons, if_pos hak.symm] at ha
        exact absurd ha hu
      · rename_i h1 h2
        rw [read_cons, if_neg (Ne.symm h2)] at ha
        rw [List.length_cons, List.length_cons, ih hr ha]

/-- Two canonical stores that read alike everywhere are the same store. -/
theorem eq_of_read_eq (m n : Memory w) (hm : wf m = true) (hn : wf n = true)
    (h : ∀ a, read m a = read n a) : m = n := by
  have low : ∀ (p : Memory w) (k : Nat), (∀ c ∈ p, k < c.1) → read p k = 0#w := fun p k hp =>
    read_of_not_listed p k fun c hc => Nat.ne_of_gt (hp c hc)
  induction m generalizing n with
  | nil =>
    cases n with
    | nil => rfl
    | cons d rest =>
      obtain ⟨hu, _, _⟩ := (wf_cons d.1 d.2 rest).1 hn
      have := h d.1
      rw [read_nil, read_cons, if_pos rfl] at this
      exact absurd this.symm hu
  | cons c rest ih =>
    obtain ⟨k, v⟩ := c
    obtain ⟨hv, hlt, hr⟩ := (wf_cons k v rest).1 hm
    cases n with
    | nil =>
      have := h k
      rw [read_nil, read_cons, if_pos rfl] at this
      exact absurd this hv
    | cons d rest' =>
      obtain ⟨j, u⟩ := d
      obtain ⟨hu, hlt', hr'⟩ := (wf_cons j u rest').1 hn
      have hkj : k = j := by
        rcases Nat.lt_trichotomy k j with hkj | hkj | hkj
        · have := h k
          rw [read_cons, if_pos rfl, read_cons, if_neg (by omega),
            low rest' k fun c hc => Nat.lt_trans hkj (hlt' c hc)] at this
          exact absurd this hv
        · exact hkj
        · have := h j
          rw [read_cons, if_neg (by omega), read_cons, if_pos rfl,
            low rest j fun c hc => Nat.lt_trans hkj (hlt c hc)] at this
          exact absurd this.symm hu
      subst hkj
      have hvu : v = u := by simpa [read_cons] using h k
      subst hvu
      rw [ih rest' hr hr' fun a => ?_]
      by_cases ha : k = a
      · subst ha
        rw [low rest k hlt, low rest' k hlt']
      · simpa [read_cons, ha] using h a

end Sys2Proof.Machine.Memory
end

