-- ==== Sys2Proof/Laws/State.lean ====
section
/-!
SUPPORT. One lemma per field of State per named update, true by rfl, so that no proof unfolds a record update.
-/
namespace Sys2Proof.Machine

variable (s : State)

/-! ## After acceptance (R121) -/

@[simp] theorem accept_mmax : (accept s).mmax = s.mmax := rfl
@[simp] theorem accept_live : (accept s).live = s.live := rfl
@[simp] theorem accept_test : (accept s).test = s.test := rfl
@[simp] theorem accept_loaded : (accept s).loaded = s.loaded := rfl
@[simp] theorem accept_lastOut : (accept s).lastOut = s.lastOut := rfl
@[simp] theorem accept_lastFb : (accept s).lastFb = s.lastFb := rfl
@[simp] theorem accept_op : (accept s).op = s.op := rfl
@[simp] theorem accept_doneBit : (accept s).doneBit = false := rfl
@[simp] theorem accept_err : (accept s).err = .ok := rfl
@[simp] theorem accept_rejected : (accept s).rejected = false := rfl
@[simp] theorem accept_det : (accept s).det = s.det := rfl
@[simp] theorem accept_primitive : (accept s).primitive = s.primitive := rfl
@[simp] theorem accept_search : (accept s).search = s.search := rfl
@[simp] theorem accept_conf : (accept s).conf = s.conf := rfl
@[simp] theorem accept_ks : (accept s).ks = s.ks := rfl
@[simp] theorem accept_traced : (accept s).traced = s.traced := rfl
@[simp] theorem accept_events : (accept s).events = s.events := rfl
@[simp] theorem accept_reads : (accept s).reads = s.reads := rfl

/-! ## After completion (R124) -/

@[simp] theorem complete_mmax (c : ErrCode) : (complete c s).mmax = s.mmax := rfl
@[simp] theorem complete_live (c : ErrCode) : (complete c s).live = s.live := rfl
@[simp] theorem complete_test (c : ErrCode) : (complete c s).test = s.test := rfl
@[simp] theorem complete_loaded (c : ErrCode) : (complete c s).loaded = s.loaded := rfl
@[simp] theorem complete_lastOut (c : ErrCode) : (complete c s).lastOut = s.lastOut := rfl
@[simp] theorem complete_lastFb (c : ErrCode) : (complete c s).lastFb = s.lastFb := rfl
@[simp] theorem complete_op (c : ErrCode) : (complete c s).op = .idle := rfl
@[simp] theorem complete_doneBit (c : ErrCode) : (complete c s).doneBit = true := rfl
@[simp] theorem complete_err (c : ErrCode) : (complete c s).err = c := rfl
@[simp] theorem complete_rejected (c : ErrCode) : (complete c s).rejected = s.rejected := rfl
@[simp] theorem complete_det (c : ErrCode) : (complete c s).det = s.det := rfl
@[simp] theorem complete_primitive (c : ErrCode) : (complete c s).primitive = s.primitive := rfl
@[simp] theorem complete_search (c : ErrCode) : (complete c s).search = s.search := rfl
@[simp] theorem complete_conf (c : ErrCode) : (complete c s).conf = s.conf := rfl
@[simp] theorem complete_ks (c : ErrCode) : (complete c s).ks = s.ks := rfl
@[simp] theorem complete_traced (c : ErrCode) : (complete c s).traced = s.traced := rfl
@[simp] theorem complete_events (c : ErrCode) : (complete c s).events = s.events := rfl
@[simp] theorem complete_reads (c : ErrCode) : (complete c s).reads = s.reads := rfl

/-! ## After rejection (R123) -/

@[simp] theorem reject_mmax : (reject s).mmax = s.mmax := rfl
@[simp] theorem reject_live : (reject s).live = s.live := rfl
@[simp] theorem reject_test : (reject s).test = s.test := rfl
@[simp] theorem reject_loaded : (reject s).loaded = s.loaded := rfl
@[simp] theorem reject_lastOut : (reject s).lastOut = s.lastOut := rfl
@[simp] theorem reject_lastFb : (reject s).lastFb = s.lastFb := rfl
@[simp] theorem reject_op : (reject s).op = s.op := rfl
@[simp] theorem reject_doneBit : (reject s).doneBit = s.doneBit := rfl
@[simp] theorem reject_err : (reject s).err = s.err := rfl
@[simp] theorem reject_rejected : (reject s).rejected = true := rfl
@[simp] theorem reject_det : (reject s).det = s.det := rfl
@[simp] theorem reject_primitive : (reject s).primitive = s.primitive := rfl
@[simp] theorem reject_search : (reject s).search = s.search := rfl
@[simp] theorem reject_conf : (reject s).conf = s.conf := rfl
@[simp] theorem reject_ks : (reject s).ks = s.ks := rfl
@[simp] theorem reject_traced : (reject s).traced = s.traced := rfl
@[simp] theorem reject_events : (reject s).events = s.events := rfl
@[simp] theorem reject_reads : (reject s).reads = s.reads := rfl

/-! ## After taking an event (R79) -/

@[simp] theorem popEvent_mmax : (popEvent s).mmax = s.mmax := rfl
@[simp] theorem popEvent_live : (popEvent s).live = s.live := rfl
@[simp] theorem popEvent_test : (popEvent s).test = s.test := rfl
@[simp] theorem popEvent_loaded : (popEvent s).loaded = s.loaded := rfl
@[simp] theorem popEvent_lastOut : (popEvent s).lastOut = s.lastOut := rfl
@[simp] theorem popEvent_lastFb : (popEvent s).lastFb = s.lastFb := rfl
@[simp] theorem popEvent_op : (popEvent s).op = s.op := rfl
@[simp] theorem popEvent_doneBit : (popEvent s).doneBit = s.doneBit := rfl
@[simp] theorem popEvent_err : (popEvent s).err = s.err := rfl
@[simp] theorem popEvent_rejected : (popEvent s).rejected = s.rejected := rfl
@[simp] theorem popEvent_det : (popEvent s).det = s.det := rfl
@[simp] theorem popEvent_primitive : (popEvent s).primitive = s.primitive := rfl
@[simp] theorem popEvent_search : (popEvent s).search = s.search := rfl
@[simp] theorem popEvent_conf : (popEvent s).conf = s.conf := rfl
@[simp] theorem popEvent_ks : (popEvent s).ks = s.ks := rfl
@[simp] theorem popEvent_traced : (popEvent s).traced = s.traced := rfl
@[simp] theorem popEvent_events : (popEvent s).events = s.events.tail := rfl
@[simp] theorem popEvent_reads : (popEvent s).reads = s.reads := rfl

/-! ## After placing a command -/

@[simp] theorem placeCommand_mmax (w : Word) : (placeCommand w s).mmax = s.mmax := rfl
@[simp] theorem placeCommand_live (w : Word) : (placeCommand w s).live = s.live := rfl
@[simp] theorem placeCommand_test (w : Word) : (placeCommand w s).test = s.test := rfl
@[simp] theorem placeCommand_loaded (w : Word) : (placeCommand w s).loaded = s.loaded := rfl
@[simp] theorem placeCommand_lastOut (w : Word) : (placeCommand w s).lastOut = s.lastOut := rfl
@[simp] theorem placeCommand_lastFb (w : Word) : (placeCommand w s).lastFb = s.lastFb := rfl
@[simp] theorem placeCommand_op (w : Word) : (placeCommand w s).op = s.op := rfl
@[simp] theorem placeCommand_doneBit (w : Word) : (placeCommand w s).doneBit = s.doneBit := rfl
@[simp] theorem placeCommand_err (w : Word) : (placeCommand w s).err = s.err := rfl
@[simp] theorem placeCommand_rejected (w : Word) : (placeCommand w s).rejected = s.rejected := rfl
@[simp] theorem placeCommand_det (w : Word) : (placeCommand w s).det = s.det := rfl
@[simp] theorem placeCommand_primitive (w : Word) : (placeCommand w s).primitive = s.primitive := rfl
@[simp] theorem placeCommand_search (w : Word) : (placeCommand w s).search = s.search := rfl
@[simp] theorem placeCommand_conf (w : Word) : (placeCommand w s).conf = s.conf := rfl
@[simp] theorem placeCommand_ks (w : Word) : (placeCommand w s).ks = s.ks := rfl
@[simp] theorem placeCommand_traced (w : Word) : (placeCommand w s).traced = s.traced := rfl
@[simp] theorem placeCommand_events (w : Word) : (placeCommand w s).events = .access { bits := 32, off := 0x00, kind := .write w } :: s.events := rfl
@[simp] theorem placeCommand_reads (w : Word) : (placeCommand w s).reads = s.reads := rfl

/-! ## After a SHIFT's clock (R146) -/

@[simp] theorem clockLive_mmax : (clockLive s).mmax = s.mmax := rfl
@[simp] theorem clockLive_live : (clockLive s).live = shiftStep s.live := rfl
@[simp] theorem clockLive_test : (clockLive s).test = s.test := rfl
@[simp] theorem clockLive_loaded : (clockLive s).loaded = s.loaded := rfl
@[simp] theorem clockLive_lastOut : (clockLive s).lastOut = output s.live := rfl
@[simp] theorem clockLive_lastFb : (clockLive s).lastFb = feedback s.live := by rw [clockLive]
@[simp] theorem clockLive_op : (clockLive s).op = s.op := rfl
@[simp] theorem clockLive_doneBit : (clockLive s).doneBit = s.doneBit := rfl
@[simp] theorem clockLive_err : (clockLive s).err = s.err := rfl
@[simp] theorem clockLive_rejected : (clockLive s).rejected = s.rejected := rfl
@[simp] theorem clockLive_det : (clockLive s).det = s.det := rfl
@[simp] theorem clockLive_primitive : (clockLive s).primitive = s.primitive := rfl
@[simp] theorem clockLive_search : (clockLive s).search = s.search := rfl
@[simp] theorem clockLive_conf : (clockLive s).conf = s.conf := rfl
@[simp] theorem clockLive_ks : (clockLive s).ks = s.ks := rfl
@[simp] theorem clockLive_traced : (clockLive s).traced = s.traced := rfl
@[simp] theorem clockLive_events : (clockLive s).events = s.events := rfl
@[simp] theorem clockLive_reads : (clockLive s).reads = s.reads := rfl

/-! ## After candidate setup (R185) -/

@[simp] theorem setupCandidate_mmax (i : Word) : (setupCandidate i s).mmax = s.mmax := rfl
@[simp] theorem setupCandidate_live (i : Word) : (setupCandidate i s).live = s.live := rfl
@[simp] theorem setupCandidate_test (i : Word) : (setupCandidate i s).test = { m := s.test.m, r := mask s.test.m, t := cand s.test.m i } := rfl
@[simp] theorem setupCandidate_loaded (i : Word) : (setupCandidate i s).loaded = s.loaded := rfl
@[simp] theorem setupCandidate_lastOut (i : Word) : (setupCandidate i s).lastOut = s.lastOut := rfl
@[simp] theorem setupCandidate_lastFb (i : Word) : (setupCandidate i s).lastFb = s.lastFb := rfl
@[simp] theorem setupCandidate_op (i : Word) : (setupCandidate i s).op = s.op := rfl
@[simp] theorem setupCandidate_doneBit (i : Word) : (setupCandidate i s).doneBit = s.doneBit := rfl
@[simp] theorem setupCandidate_err (i : Word) : (setupCandidate i s).err = s.err := rfl
@[simp] theorem setupCandidate_rejected (i : Word) : (setupCandidate i s).rejected = s.rejected := rfl
@[simp] theorem setupCandidate_det (i : Word) : (setupCandidate i s).det = detStart s.test.m s.det := rfl
@[simp] theorem setupCandidate_primitive (i : Word) : (setupCandidate i s).primitive = s.primitive := rfl
@[simp] theorem setupCandidate_search (i : Word) : (setupCandidate i s).search = { s.search with searchI := i } := rfl
@[simp] theorem setupCandidate_conf (i : Word) : (setupCandidate i s).conf = s.conf := rfl
@[simp] theorem setupCandidate_ks (i : Word) : (setupCandidate i s).ks = s.ks := rfl
@[simp] theorem setupCandidate_traced (i : Word) : (setupCandidate i s).traced = s.traced := rfl
@[simp] theorem setupCandidate_events (i : Word) : (setupCandidate i s).events = s.events := rfl
@[simp] theorem setupCandidate_reads (i : Word) : (setupCandidate i s).reads = s.reads := rfl

/-! ## After the storing of a GENKS clock (R203) -/

@[simp] theorem storeClock_mmax (k v : Word) (fb out : Bool) : (storeClock k v fb out s).mmax = s.mmax := rfl
@[simp] theorem storeClock_live (k v : Word) (fb out : Bool) : (storeClock k v fb out s).live = s.live := rfl
@[simp] theorem storeClock_test (k v : Word) (fb out : Bool) : (storeClock k v fb out s).test = s.test := rfl
@[simp] theorem storeClock_loaded (k v : Word) (fb out : Bool) : (storeClock k v fb out s).loaded = s.loaded := rfl
@[simp] theorem storeClock_lastOut (k v : Word) (fb out : Bool) : (storeClock k v fb out s).lastOut = out := rfl
@[simp] theorem storeClock_lastFb (k v : Word) (fb out : Bool) : (storeClock k v fb out s).lastFb = fb := rfl
@[simp] theorem storeClock_op (k v : Word) (fb out : Bool) : (storeClock k v fb out s).op = s.op := rfl
@[simp] theorem storeClock_doneBit (k v : Word) (fb out : Bool) : (storeClock k v fb out s).doneBit = s.doneBit := rfl
@[simp] theorem storeClock_err (k v : Word) (fb out : Bool) : (storeClock k v fb out s).err = s.err := rfl
@[simp] theorem storeClock_rejected (k v : Word) (fb out : Bool) : (storeClock k v fb out s).rejected = s.rejected := rfl
@[simp] theorem storeClock_det (k v : Word) (fb out : Bool) : (storeClock k v fb out s).det = { s.det with ones := s.det.ones || out } := rfl
@[simp] theorem storeClock_primitive (k v : Word) (fb out : Bool) : (storeClock k v fb out s).primitive = s.primitive := rfl
@[simp] theorem storeClock_search (k v : Word) (fb out : Bool) : (storeClock k v fb out s).search = s.search := rfl
@[simp] theorem storeClock_conf (k v : Word) (fb out : Bool) : (storeClock k v fb out s).conf = s.conf := rfl
@[simp] theorem storeClock_ks (k v : Word) (fb out : Bool) : (storeClock k v fb out s).ks = { s.ks with buf := Memory.write s.ks.buf k.toNat (BitVec.ofBool out) } := rfl
@[simp] theorem storeClock_traced (k v : Word) (fb out : Bool) : (storeClock k v fb out s).traced = s.traced ++ [{ k := k, s := v, fb := fb, out := out }] := rfl
@[simp] theorem storeClock_events (k v : Word) (fb out : Bool) : (storeClock k v fb out s).events = s.events := rfl
@[simp] theorem storeClock_reads (k v : Word) (fb out : Bool) : (storeClock k v fb out s).reads = s.reads := rfl

/-! ## After a host read (R72) -/

@[simp] theorem readEffect_mmax (off : Nat) : (readEffect off s).mmax = s.mmax := rfl
@[simp] theorem readEffect_live (off : Nat) : (readEffect off s).live = s.live := rfl
@[simp] theorem readEffect_test (off : Nat) : (readEffect off s).test = s.test := rfl
@[simp] theorem readEffect_loaded (off : Nat) : (readEffect off s).loaded = s.loaded := rfl
@[simp] theorem readEffect_lastOut (off : Nat) : (readEffect off s).lastOut = s.lastOut := rfl
@[simp] theorem readEffect_lastFb (off : Nat) : (readEffect off s).lastFb = s.lastFb := rfl
@[simp] theorem readEffect_op (off : Nat) : (readEffect off s).op = s.op := rfl
@[simp] theorem readEffect_doneBit (off : Nat) : (readEffect off s).doneBit = s.doneBit := rfl
@[simp] theorem readEffect_err (off : Nat) : (readEffect off s).err = s.err := rfl
@[simp] theorem readEffect_rejected (off : Nat) : (readEffect off s).rejected = s.rejected := rfl
@[simp] theorem readEffect_det (off : Nat) : (readEffect off s).det = s.det := rfl
@[simp] theorem readEffect_primitive (off : Nat) : (readEffect off s).primitive = s.primitive := rfl
@[simp] theorem readEffect_search (off : Nat) : (readEffect off s).search = s.search := rfl
@[simp] theorem readEffect_conf (off : Nat) : (readEffect off s).conf = s.conf := rfl
@[simp] theorem readEffect_ks (off : Nat) : (readEffect off s).ks = s.ks := rfl
@[simp] theorem readEffect_traced (off : Nat) : (readEffect off s).traced = s.traced := rfl
@[simp] theorem readEffect_events (off : Nat) : (readEffect off s).events = s.events := rfl
@[simp] theorem readEffect_reads (off : Nat) : (readEffect off s).reads = s.reads ++ [(off, hostRead s off)] := rfl

/-! ## After reset (R400) -/

@[simp] theorem resetEvent_mmax : (resetEvent s).mmax = s.mmax := rfl
@[simp] theorem resetEvent_live : (resetEvent s).live = Engine.reset := rfl
@[simp] theorem resetEvent_test : (resetEvent s).test = Engine.reset := rfl
@[simp] theorem resetEvent_loaded : (resetEvent s).loaded = false := rfl
@[simp] theorem resetEvent_lastOut : (resetEvent s).lastOut = false := rfl
@[simp] theorem resetEvent_lastFb : (resetEvent s).lastFb = false := rfl
@[simp] theorem resetEvent_op : (resetEvent s).op = .idle := rfl
@[simp] theorem resetEvent_doneBit : (resetEvent s).doneBit = false := rfl
@[simp] theorem resetEvent_err : (resetEvent s).err = .ok := rfl
@[simp] theorem resetEvent_rejected : (resetEvent s).rejected = false := rfl
@[simp] theorem resetEvent_det : (resetEvent s).det = Detector.reset := rfl
@[simp] theorem resetEvent_primitive : (resetEvent s).primitive = false := rfl
@[simp] theorem resetEvent_search : (resetEvent s).search = { searchI := 0#32, resultTaps := 0#32, verified := false, fallback := false } := rfl
@[simp] theorem resetEvent_conf : (resetEvent s).conf = { width := 0#32, seed := 0#32, taps := 0#32, ksaddr := 0#32 } := rfl
@[simp] theorem resetEvent_ks : (resetEvent s).ks = { buf := [], len := 0#32 } := rfl
@[simp] theorem resetEvent_traced : (resetEvent s).traced = s.traced := rfl
@[simp] theorem resetEvent_events : (resetEvent s).events = s.events := rfl
@[simp] theorem resetEvent_reads : (resetEvent s).reads = s.reads := rfl

/-! ## After replacing an engine (R20) -/

@[simp] theorem setEngine_mmax (b : Bound) (x : Engine) : (setEngine b x s).mmax = s.mmax := by
  cases b <;> rfl
@[simp] theorem setEngine_loaded (b : Bound) (x : Engine) : (setEngine b x s).loaded = s.loaded := by
  cases b <;> rfl
@[simp] theorem setEngine_lastOut (b : Bound) (x : Engine) : (setEngine b x s).lastOut = s.lastOut := by
  cases b <;> rfl
@[simp] theorem setEngine_lastFb (b : Bound) (x : Engine) : (setEngine b x s).lastFb = s.lastFb := by
  cases b <;> rfl
@[simp] theorem setEngine_op (b : Bound) (x : Engine) : (setEngine b x s).op = s.op := by
  cases b <;> rfl
@[simp] theorem setEngine_doneBit (b : Bound) (x : Engine) : (setEngine b x s).doneBit = s.doneBit := by
  cases b <;> rfl
@[simp] theorem setEngine_err (b : Bound) (x : Engine) : (setEngine b x s).err = s.err := by
  cases b <;> rfl
@[simp] theorem setEngine_rejected (b : Bound) (x : Engine) : (setEngine b x s).rejected = s.rejected := by
  cases b <;> rfl
@[simp] theorem setEngine_det (b : Bound) (x : Engine) : (setEngine b x s).det = s.det := by
  cases b <;> rfl
@[simp] theorem setEngine_primitive (b : Bound) (x : Engine) : (setEngine b x s).primitive = s.primitive := by
  cases b <;> rfl
@[simp] theorem setEngine_search (b : Bound) (x : Engine) : (setEngine b x s).search = s.search := by
  cases b <;> rfl
@[simp] theorem setEngine_conf (b : Bound) (x : Engine) : (setEngine b x s).conf = s.conf := by
  cases b <;> rfl
@[simp] theorem setEngine_ks (b : Bound) (x : Engine) : (setEngine b x s).ks = s.ks := by
  cases b <;> rfl
@[simp] theorem setEngine_traced (b : Bound) (x : Engine) : (setEngine b x s).traced = s.traced := by
  cases b <;> rfl
@[simp] theorem setEngine_events (b : Bound) (x : Engine) : (setEngine b x s).events = s.events := by
  cases b <;> rfl
@[simp] theorem setEngine_reads (b : Bound) (x : Engine) : (setEngine b x s).reads = s.reads := by
  cases b <;> rfl

@[simp] theorem engineOf_setEngine (b : Bound) (x : Engine) : engineOf b (setEngine b x s) = x := by
  cases b <;> rfl

theorem engineOf_setEngine_of_ne (b c : Bound) (x : Engine) (h : c ≠ b) :
    engineOf c (setEngine b x s) = engineOf c s := by
  cases b <;> cases c <;> first | rfl | exact absurd rfl h

@[simp] theorem busy_accept : busy (accept s) = busy s := rfl
@[simp] theorem busy_complete (c : ErrCode) : busy (complete c s) = false := rfl
@[simp] theorem busy_reject : busy (reject s) = busy s := rfl

/-- The four sequencer states (R24). -/
theorem op_cases : s.op = .idle ∨ s.op = .check ∨ s.op = .search ∨ s.op = .genks := by
  cases s.op <;> simp

theorem busy_eq_false_iff : busy s = false ↔ s.op = .idle := by
  simp [busy]

theorem busy_eq_true_iff : busy s = true ↔ s.op ≠ .idle := by
  simp [busy]

@[simp] theorem engineOf_live : engineOf .live s = s.live := rfl
@[simp] theorem engineOf_test : engineOf .test s = s.test := rfl
@[simp] theorem setEngine_live (x : Engine) : setEngine .live x s = { s with live := x } := rfl
@[simp] theorem setEngine_test (x : Engine) : setEngine .test x s = { s with test := x } := rfl

end Sys2Proof.Machine
end

