-- ==== Sys2Proof/Laws/Detector.lean ====
section
/-!
SUPPORT. Everything a detector iteration and a busy step can do (spec/42_detector.md R162, spec/40_control.md R127).
-/
namespace Sys2Proof.Machine

/-- A table bit is 0 or 1. -/
theorem bit_zero_or_one (b : BitVec 1) : b = 0#1 ∨ b = 1#1 := by
  rcases b.eq_zero_or_eq_one with h | h
  · exact .inl h
  · exact .inr h

theorem hasSeen_iff (d : Detector) (s : Word) :
    d.hasSeen s = true ↔ Memory.read d.seenValid s.toNat = 1#1 := by
  simp [Detector.hasSeen]

theorem hasSeen_eq_false_iff (d : Detector) (s : Word) :
    d.hasSeen s = false ↔ Memory.read d.seenValid s.toNat = 0#1 := by
  rcases bit_zero_or_one (Memory.read d.seenValid s.toNat) with h | h <;>
    simp [Detector.hasSeen, h]

/-- The state after a clocked iteration (R162). -/
def clockedState (b : Bound) (s : State) : State :=
  { setEngine b (shiftStep (engineOf b s)) s with det := s.det.record (engineOf b s).r }

/-- The state after an iteration that found a repeat (R162). -/
def repeatedState (b : Bound) (s : State) : State :=
  { s with det := s.det.stopOn (engineOf b s).r }

/-- What the clock of an iteration reports (R162). -/
def clockedResult (b : Bound) (s : State) : DetResult :=
  .clocked s.det.cycle (engineOf b s).r (feedback (engineOf b s)) (output (engineOf b s))

/-- The three ends of an iteration, each under its own condition (R162). -/
theorem detIter_cap (b : Bound) (s : State) (h : s.det.cycle = s.det.ncap) :
    detIter b s = (.cap, s) := by
  rw [detIter, if_pos h]

theorem detIter_repeated (b : Bound) (s : State) (h : s.det.cycle ≠ s.det.ncap)
    (hs : s.det.hasSeen (engineOf b s).r = true) :
    detIter b s = (.repeated, repeatedState b s) := by
  rw [detIter, if_neg h, if_pos hs, repeatedState]

theorem detIter_clocked (b : Bound) (s : State) (h : s.det.cycle ≠ s.det.ncap)
    (hs : s.det.hasSeen (engineOf b s).r = false) :
    detIter b s = (clockedResult b s, clockedState b s) := by
  rw [detIter, if_neg h, if_neg (by simp [hs]), clockedResult, clockedState]

/-- A detector iteration ends in one of the three ways. -/
theorem detIter_cases (b : Bound) (s : State) :
    (s.det.cycle = s.det.ncap ∧ detIter b s = (.cap, s)) ∨
    (s.det.cycle ≠ s.det.ncap ∧ s.det.hasSeen (engineOf b s).r = true ∧
      detIter b s = (.repeated, repeatedState b s)) ∨
    (s.det.cycle ≠ s.det.ncap ∧ s.det.hasSeen (engineOf b s).r = false ∧
      detIter b s = (clockedResult b s, clockedState b s)) := by
  by_cases h : s.det.cycle = s.det.ncap
  · exact .inl ⟨h, detIter_cap b s h⟩
  · cases hs : s.det.hasSeen (engineOf b s).r with
    | true => exact .inr (.inl ⟨h, rfl, detIter_repeated b s h hs⟩)
    | false => exact .inr (.inr ⟨h, rfl, detIter_clocked b s h hs⟩)

/-- A CHECK busy step (R166): a clock, or the end of the test. -/
theorem checkBusyStep_cases (s : State) :
    (s.det.cycle ≠ s.det.ncap ∧ s.det.hasSeen s.test.r = false ∧
      checkBusyStep s = clockedState .test s) ∨
    (s.det.cycle = s.det.ncap ∧ checkBusyStep s = finishCheck s) ∨
    (s.det.cycle ≠ s.det.ncap ∧ s.det.hasSeen s.test.r = true ∧
      checkBusyStep s = finishCheck (repeatedState .test s)) := by
  rcases detIter_cases .test s with ⟨h, e⟩ | ⟨h, hs, e⟩ | ⟨h, hs, e⟩
  · exact .inr (.inl ⟨h, by rw [checkBusyStep, e]⟩)
  · exact .inr (.inr ⟨h, hs, by rw [checkBusyStep, e]⟩)
  · exact .inl ⟨h, hs, by rw [checkBusyStep, e, clockedResult]⟩

/-- A SEARCH busy step (R184): a clock, or the end of one candidate's run. -/
theorem searchBusyStep_cases (s : State) :
    (s.det.cycle ≠ s.det.ncap ∧ s.det.hasSeen s.test.r = false ∧
      searchBusyStep s = clockedState .test s) ∨
    (s.det.cycle = s.det.ncap ∧ searchBusyStep s = endCandidate s) ∨
    (s.det.cycle ≠ s.det.ncap ∧ s.det.hasSeen s.test.r = true ∧
      searchBusyStep s = endCandidate (repeatedState .test s)) := by
  rcases detIter_cases .test s with ⟨h, e⟩ | ⟨h, hs, e⟩ | ⟨h, hs, e⟩
  · exact .inr (.inl ⟨h, by rw [searchBusyStep, e]⟩)
  · exact .inr (.inr ⟨h, hs, by rw [searchBusyStep, e]⟩)
  · exact .inl ⟨h, hs, by rw [searchBusyStep, e, clockedResult]⟩

/-- A GENKS busy step (R203): a clock whose output is stored, or the end of the run. -/
theorem genksBusyStep_cases (s : State) :
    (s.det.cycle ≠ s.det.ncap ∧ s.det.hasSeen s.live.r = false ∧
      genksBusyStep s =
        storeClock s.det.cycle s.live.r (feedback s.live) (output s.live) (clockedState .live s)) ∨
    (s.det.cycle = s.det.ncap ∧ genksBusyStep s = finishGenks s) ∨
    (s.det.cycle ≠ s.det.ncap ∧ s.det.hasSeen s.live.r = true ∧
      genksBusyStep s = finishGenks (repeatedState .live s)) := by
  rcases detIter_cases .live s with ⟨h, e⟩ | ⟨h, hs, e⟩ | ⟨h, hs, e⟩
  · exact .inr (.inl ⟨h, by rw [genksBusyStep, e]⟩)
  · exact .inr (.inr ⟨h, hs, by rw [genksBusyStep, e]⟩)
  · exact .inl ⟨h, hs, by rw [genksBusyStep, e, clockedResult]; rfl⟩

/-! ## The busy steps as equations -/

theorem checkBusyStep_eq (s : State) :
    checkBusyStep s =
      if s.det.cycle = s.det.ncap then finishCheck s
      else if s.det.hasSeen s.test.r then finishCheck (repeatedState .test s)
      else clockedState .test s := by
  rcases checkBusyStep_cases s with ⟨h, hs, e⟩ | ⟨h, e⟩ | ⟨h, hs, e⟩
  · rw [e, if_neg h, if_neg (by simp [hs])]
  · rw [e, if_pos h]
  · rw [e, if_neg h, if_pos hs]

theorem searchBusyStep_eq (s : State) :
    searchBusyStep s =
      if s.det.cycle = s.det.ncap then endCandidate s
      else if s.det.hasSeen s.test.r then endCandidate (repeatedState .test s)
      else clockedState .test s := by
  rcases searchBusyStep_cases s with ⟨h, hs, e⟩ | ⟨h, e⟩ | ⟨h, hs, e⟩
  · rw [e, if_neg h, if_neg (by simp [hs])]
  · rw [e, if_pos h]
  · rw [e, if_neg h, if_pos hs]

theorem genksBusyStep_eq (s : State) :
    genksBusyStep s =
      if s.det.cycle = s.det.ncap then finishGenks s
      else if s.det.hasSeen s.live.r then finishGenks (repeatedState .live s)
      else storeClock s.det.cycle s.live.r (feedback s.live) (output s.live)
        (clockedState .live s) := by
  rcases genksBusyStep_cases s with ⟨h, hs, e⟩ | ⟨h, e⟩ | ⟨h, hs, e⟩
  · rw [e, if_neg h, if_neg (by simp [hs])]
  · rw [e, if_pos h]
  · rw [e, if_neg h, if_pos hs]

/-- How a candidate's run ends (R184). -/
theorem endCandidate_cases (s : State) :
    (passCondition s.det = true ∧ endCandidate s = complete .ok { s with
      primitive := true, search := { s.search with resultTaps := s.test.t, verified := true } }) ∨
    (passCondition s.det = false ∧ s.search.searchI = lastCandidate s.test.m ∧
      endCandidate s = complete .ok { s with
        primitive := false
        search := { s.search with resultTaps := fallbackTaps s.test.m, fallback := true } }) ∨
    (passCondition s.det = false ∧ s.search.searchI ≠ lastCandidate s.test.m ∧
      endCandidate s = setupCandidate (s.search.searchI + 1#32) s) := by
  cases hp : passCondition s.det with
  | true => exact .inl ⟨rfl, by rw [endCandidate, if_pos hp]⟩
  | false =>
    by_cases hl : s.search.searchI = lastCandidate s.test.m
    · exact .inr (.inl ⟨rfl, hl, by rw [endCandidate, if_neg (by simp [hp]), if_pos hl]⟩)
    · exact .inr (.inr ⟨rfl, hl, by rw [endCandidate, if_neg (by simp [hp]), if_neg hl]⟩)

theorem passCondition_iff (d : Detector) : passCondition d = true ↔ d.repeated = false ∧ d.seenCount = d.ncap := by
  simp [passCondition]

/-- What a run's table says after a clock (R162). -/
theorem read_record_seenValid (d : Detector) (s : Word) (a : Nat) :
    Memory.read (d.record s).seenValid a =
      if a = s.toNat then 1#1 else Memory.read d.seenValid a := by
  simp only [Detector.record, Memory.read_write]

theorem read_record_seenIdx (d : Detector) (s : Word) (a : Nat) :
    Memory.read (d.record s).seenIdx a =
      if a = s.toNat then d.cycle else Memory.read d.seenIdx a := by
  simp only [Detector.record, Memory.read_write]

end Sys2Proof.Machine
end

