-- ==== Sys2Proof/Laws/Fields.lean ====
section
/-!
SUPPORT. The fields of a command word as numbers (spec/30_encoding.md R100), and the bits of a register word built from
fields (spec/10_state.md R42, R50).
-/
namespace Sys2Proof

theorem opField_toNat (w : Word) : (opField w).toNat = w.toNat % 16 := by
  simp [opField, BitVec.extractLsb'_toNat]

theorem rsvField_eq_zero_iff (w : Word) : rsvField w = 0#28 ↔ w.toNat / 16 = 0 := by
  rw [← BitVec.toNat_inj]
  simp [rsvField, BitVec.extractLsb'_toNat, Nat.shiftRight_eq_div_pow]
  have := w.isLt
  omega

namespace Machine

/-- A field of a register word, bit by bit. -/
theorem getLsbD_field {w : Nat} (v : BitVec w) (lo i : Nat) :
    (field v lo).getLsbD i = (decide (i < 32) && decide (lo ≤ i) && v.getLsbD (i - lo)) := by
  rw [field, BitVec.getLsbD_shiftLeft, BitVec.getLsbD_setWidth]
  by_cases h : i < 32 <;> by_cases h' : i < lo
  · simp [h, h']
  · simp [h, h', show i - lo < 32 by omega, show lo ≤ i by omega]
  · simp [h]
  · simp [h]

/-- A one-bit field sets its own bit and no other. -/
theorem getLsbD_flag (b : Bool) (lo i : Nat) (hlo : lo < 32) :
    (flag b lo).getLsbD i = (decide (i = lo) && b) := by
  rw [flag, getLsbD_field, BitVec.getLsbD_ofBool]
  by_cases h : i = lo
  · simp [h, hlo]
  · by_cases h' : lo ≤ i
    · simp [h, show i - lo ≠ 0 by omega]
    · simp [h, h']

end Machine

end Sys2Proof
end

