-- ==== Sys2Proof/Laws/PerInstr.lean ====
section
/-!
SUPPORT. What holds of every command as syntax, one lemma per constructor: its word is one 32-bit word with the reserved
field 0 and an opcode up to 6, and the decoder reads it back (spec/30_encoding.md R100 to R103).
-/
namespace Sys2Proof.Laws.Encoding

/-- The encoding of one command (R100 to R103, R105): the reserved field is 0, OP is at most 6, the table's word and the
decoder agree on it, and the command needs no operand check. -/
def Statement (i : Instr) : Prop :=
  rsvField (encode i) = 0#28 ∧ (opField (encode i)).toNat ≤ 6 ∧ decode (encode i) = .command i ∧
  decodeTableWord 32 (encode i).toNat = some i ∧ i.wf = true

theorem nop : Statement .nop := by unfold Statement; decide
theorem load : Statement .load := by unfold Statement; decide
theorem shift : Statement .shift := by unfold Statement; decide
theorem check : Statement .check := by unfold Statement; decide
theorem search : Statement .search := by unfold Statement; decide
theorem genks : Statement .genks := by unfold Statement; decide
theorem cancel : Statement .cancel := by unfold Statement; decide

end Sys2Proof.Laws.Encoding
end

