-- ==== Sys2Proof/Laws/Step.lean ====
section
/-!
SUPPORT. Everything a command and a step can do (spec/40_control.md R120 to R127, spec/20_memory.md R79).
-/
namespace Sys2Proof.Machine

/-- The rule an accepted command runs (R121). -/
def ruleOf (i : Instr) : State → State :=
  match i with
  | .nop => complete .ok
  | .load => loadRule
  | .shift => shiftRule
  | .check => checkRule
  | .search => searchRule
  | .genks => genksRule
  | .cancel => complete .ok

/-- A command accepted while idle runs its rule on the cleared status (R121). -/
theorem exec_idle (i : Instr) (s : State) (h : s.op = .idle) :
    exec i s = .next (ruleOf i (accept s)) := by
  have hb : busy s = false := (busy_eq_false_iff s).2 h
  cases i <;>
    simp only [exec, execNop, execLoad, execShift, execCheck, execSearch, execGenks, execCancel,
      command, hb, ruleOf, Bool.false_eq_true, if_false]

/-- A command other than CANCEL written while busy is rejected (R123). -/
theorem exec_busy (i : Instr) (s : State) (h : s.op ≠ .idle) (hi : i ≠ .cancel) :
    exec i s = .next (reject s) := by
  have hb : busy s = true := (busy_eq_true_iff s).2 h
  cases i <;> first
    | exact absurd rfl hi
    | simp only [exec, execNop, execLoad, execShift, execCheck, execSearch, execGenks, command, hb,
        if_true]

/-- CANCEL written while busy ends the running command (R126). -/
theorem exec_cancel_busy (s : State) (h : s.op ≠ .idle) :
    exec .cancel s = .next (complete .cancelled (accept s)) := by
  have hb : busy s = true := (busy_eq_true_iff s).2 h
  simp only [exec, execCancel, hb, if_true]

theorem illegalCommand_idle (s : State) (h : s.op = .idle) :
    illegalCommand s = .next (complete .illegalCommand (accept s)) := by
  have hb : busy s = false := (busy_eq_false_iff s).2 h
  simp only [illegalCommand, command, hb, Bool.false_eq_true, if_false]

theorem illegalCommand_busy (s : State) (h : s.op ≠ .idle) :
    illegalCommand s = .next (reject s) := by
  have hb : busy s = true := (busy_eq_true_iff s).2 h
  simp only [illegalCommand, command, hb, if_true]

/-! ## The busy step by OP (R127) -/

theorem busyStep_idle (s : State) (h : s.op = .idle) : busyStep s = s := by rw [busyStep, h]
theorem busyStep_check (s : State) (h : s.op = .check) : busyStep s = checkBusyStep s := by
  rw [busyStep, h]
theorem busyStep_search (s : State) (h : s.op = .search) : busyStep s = searchBusyStep s := by
  rw [busyStep, h]
theorem busyStep_genks (s : State) (h : s.op = .genks) : busyStep s = genksBusyStep s := by
  rw [busyStep, h]

/-! ## The next event -/

theorem popEvent_eq (s : State) (e : Event) (rest : List Event) (h : s.events = e :: rest) :
    popEvent s = { s with events := rest } := by
  rw [popEvent, h, List.tail_cons]

theorem step_none (s : State) (h : s.events = []) : step s = .next (busyStep s) := by
  rw [step, fetch, h]

theorem step_busy (s : State) (rest : List Event) (h : s.events = .busy :: rest) :
    step s = .next (busyStep (popEvent s)) := by
  rw [step, fetch, h]

theorem step_wait (s : State) (rest : List Event) (h : s.events = .wait :: rest) :
    step s = .next (waitStep s) := by
  rw [step, fetch, h]

theorem step_reset (s : State) (rest : List Event) (h : s.events = .reset :: rest) :
    step s = .next (resetEvent (popEvent s)) := by
  rw [step, fetch, h]

theorem accessRefusal_eq_none_iff (a : Access) :
    accessRefusal a = none ↔ a.bits = 32 ∧ a.off % 4 = 0 ∧ a.off < 0x100 := by
  rw [accessRefusal]
  split
  · simp; omega
  · split
    · simp; omega
    · split
      · simp; omega
      · simp; omega

/-- The well-formed accesses are exactly those the port does not refuse (R74). -/
theorem accessRefusal_eq_none_iff_wf (a : Access) : accessRefusal a = none ↔ a.wf = true := by
  rw [accessRefusal_eq_none_iff, Access.wf]
  simp [and_assoc]

/-- An access to a named register is defined (R40, R72, R73). -/
theorem accessRefusal_reg (n : Reg) (k : AccessKind) :
    accessRefusal { bits := 32, off := n.offset, kind := k } = none := by
  rw [accessRefusal_eq_none_iff]
  cases n <;> simp [Reg.offset]

theorem step_read (s : State) (a : Access) (rest : List Event) (h : s.events = .access a :: rest)
    (ha : accessRefusal a = none) (hk : a.kind = .read) :
    step s = .next (readEffect a.off (popEvent s)) := by
  rw [step, fetch, h]
  simp only [fetchAccess, ha, hk]

theorem step_write (s : State) (a : Access) (v : Word) (rest : List Event)
    (h : s.events = .access a :: rest) (ha : accessRefusal a = none) (hk : a.kind = .write v)
    (ho : a.off ≠ 0x00) : step s = .next (hostWrite (popEvent s) a.off v) := by
  rw [step, fetch, h]
  simp only [fetchAccess, ha, hk, if_neg ho]

/-- A word written to CMD is decoded and run in the same step (R76, R120). -/
theorem step_command (s : State) (a : Access) (w : Word) (rest : List Event)
    (h : s.events = .access a :: rest) (ha : accessRefusal a = none) (hk : a.kind = .write w)
    (ho : a.off = 0x00) :
    step s = match decode w with
      | .command i => exec i (popEvent s)
      | .illegal _ => illegalCommand (popEvent s) := by
  rw [step, fetch, h]
  simp only [fetchAccess, ha, hk, if_pos ho]
  all_goals rfl

theorem step_refused (s : State) (a : Access) (r : Refusal) (rest : List Event)
    (h : s.events = .access a :: rest) (ha : accessRefusal a = some r) : step s = .refused r := by
  rw [step, fetch, h]
  simp only [fetchAccess, ha]

theorem wr_eq (n : Reg) (v : Word) :
    wr n v = .access { bits := 32, off := n.offset, kind := .write v } := rfl

/-- A write of CMD as `wr` spells it. -/
theorem step_wr_cmd (s : State) (w : Word) (rest : List Event) (h : s.events = wr .CMD w :: rest) :
    step s = match decode w with
      | .command i => exec i (popEvent s)
      | .illegal _ => illegalCommand (popEvent s) :=
  step_command s _ w rest h rfl rfl rfl

/-- A write of a register other than CMD, as `wr` spells it (R73). -/
theorem step_wr (s : State) (n : Reg) (v : Word) (rest : List Event) (h : s.events = wr n v :: rest)
    (hn : n ≠ .CMD) : step s = .next (hostWrite { s with events := rest } n.offset v) := by
  rw [step_write s _ v rest h (accessRefusal_reg n _) rfl, popEvent_eq s _ rest h]
  cases n <;> first | exact absurd rfl hn | simp [Reg.offset]

/-- A read of a register, as `rd` spells it (R72). -/
theorem step_rd (s : State) (n : Reg) (rest : List Event) (h : s.events = rd n :: rest) :
    step s = .next (readEffect n.offset { s with events := rest }) := by
  rw [step_read s _ rest h (accessRefusal_reg n _) rfl, popEvent_eq s _ rest h]

/-- Everything a step that answers a next state can have done. -/
theorem step_cases (s t : State) (h : step s = .next t) :
    (s.events = [] ∧ t = busyStep s) ∨
    (∃ rest, s.events = .busy :: rest ∧ t = busyStep (popEvent s)) ∨
    (∃ rest, s.events = .wait :: rest ∧ t = waitStep s) ∨
    (∃ rest, s.events = .reset :: rest ∧ t = resetEvent (popEvent s)) ∨
    (∃ off rest, s.events = .access { bits := 32, off := off, kind := .read } :: rest ∧
      t = readEffect off (popEvent s)) ∨
    (∃ off v rest, s.events = .access { bits := 32, off := off, kind := .write v } :: rest ∧
      off ≠ 0x00 ∧ t = hostWrite (popEvent s) off v) ∨
    (∃ w i rest, s.events = wr .CMD w :: rest ∧ decode w = .command i ∧
      exec i (popEvent s) = .next t) ∨
    (∃ w why rest, s.events = wr .CMD w :: rest ∧ decode w = .illegal why ∧
      illegalCommand (popEvent s) = .next t) := by
  cases he : s.events with
  | nil =>
    rw [step_none s he] at h
    exact .inl ⟨rfl, by cases h; rfl⟩
  | cons e rest =>
    cases e with
    | busy =>
      rw [step_busy s rest he] at h
      exact .inr (.inl ⟨rest, rfl, by cases h; rfl⟩)
    | wait =>
      rw [step_wait s rest he] at h
      exact .inr (.inr (.inl ⟨rest, rfl, by cases h; rfl⟩))
    | reset =>
      rw [step_reset s rest he] at h
      exact .inr (.inr (.inr (.inl ⟨rest, rfl, by cases h; rfl⟩)))
    | access a =>
      obtain ⟨bits, off, kind⟩ := a
      cases hr : accessRefusal { bits := bits, off := off, kind := kind } with
      | some r =>
        rw [step_refused s _ r rest he hr] at h
        cases h
      | none =>
        obtain ⟨hb, _, _⟩ := (accessRefusal_eq_none_iff _).1 hr
        simp only at hb
        subst hb
        cases kind with
        | read =>
          rw [step_read s _ rest he hr rfl] at h
          exact .inr (.inr (.inr (.inr (.inl ⟨off, rest, rfl, by cases h; rfl⟩))))
        | write v =>
          by_cases ho : off = 0x00
          · subst ho
            rw [step_command s _ v rest he hr rfl rfl] at h
            cases hd : decode v with
            | command i =>
              rw [hd] at h
              exact .inr (.inr (.inr (.inr (.inr (.inr (.inl ⟨v, i, rest, rfl, hd, h⟩))))))
            | illegal why =>
              rw [hd] at h
              exact .inr (.inr (.inr (.inr (.inr (.inr (.inr ⟨v, why, rest, rfl, hd, h⟩))))))
          · rw [step_write s _ v rest he hr rfl ho] at h
            exact .inr (.inr (.inr (.inr (.inr (.inl ⟨off, v, rest, rfl, ho, by cases h; rfl⟩)))))

/-- A write outside CMD changes the configuration registers and nothing else (R73). -/
theorem hostWrite_eq (s : State) (off : Nat) (v : Word) :
    hostWrite s off v = { s with conf := (hostWrite s off v).conf } := by
  rw [hostWrite.eq_def]
  split <;> rfl

/-! ## What a busy step keeps (R127, R129) -/

/-- What a busy step leaves alone: everything of the host's side, the configuration, LOADED and MMAX always; the live engine,
its latches, the keystream and the trace unless GENKS runs; the search harness unless SEARCH runs. -/
theorem busyStep_frame (s : State) :
    (busyStep s).mmax = s.mmax ∧ (busyStep s).loaded = s.loaded ∧ (busyStep s).conf = s.conf ∧
    (busyStep s).events = s.events ∧ (busyStep s).reads = s.reads ∧
    (s.op ≠ .genks → (busyStep s).live = s.live ∧ (busyStep s).lastOut = s.lastOut ∧
      (busyStep s).lastFb = s.lastFb ∧ (busyStep s).ks = s.ks ∧ (busyStep s).traced = s.traced) ∧
    (s.op ≠ .search → (busyStep s).search = s.search) := by
  rw [busyStep]
  split
  · simp
  · rename_i hop
    rcases checkBusyStep_cases s with ⟨_, _, e⟩ | ⟨_, e⟩ | ⟨_, _, e⟩ <;> rw [e] <;>
      simp [clockedState, finishCheck, repeatedState]
  · rename_i hop
    rcases searchBusyStep_cases s with ⟨_, _, e⟩ | ⟨_, e⟩ | ⟨_, _, e⟩ <;> rw [e]
    · simp [clockedState, hop]
    · rcases endCandidate_cases s with ⟨_, e⟩ | ⟨_, _, e⟩ | ⟨_, _, e⟩ <;> rw [e] <;> simp [hop]
    · rcases endCandidate_cases (repeatedState .test s) with ⟨_, e⟩ | ⟨_, _, e⟩ | ⟨_, _, e⟩ <;>
        rw [e] <;> simp [hop, repeatedState]
  · rename_i hop
    rcases genksBusyStep_cases s with ⟨_, _, e⟩ | ⟨_, e⟩ | ⟨_, _, e⟩ <;> rw [e]
    · simp [clockedState, hop]
    all_goals
      rw [finishGenks]
      split <;> simp [hop, repeatedState]

/-- A busy step does not read the host's events. -/
theorem busyStep_events (s : State) (es : List Event) :
    busyStep { s with events := es } = { busyStep s with events := es } := by
  have hc : ∀ u : State,
      endCandidate { u with events := es } = { endCandidate u with events := es } := by
    intro u
    simp only [endCandidate]
    split
    · rfl
    · split <;> rfl
  have hg : ∀ u : State,
      finishGenks { u with events := es } = { finishGenks u with events := es } := by
    intro u
    simp only [finishGenks]
    split <;> rfl
  rcases op_cases s with hop | hop | hop | hop
  · rw [busyStep_idle s hop, busyStep_idle { s with events := es } hop]
  · rw [busyStep_check s hop, busyStep_check { s with events := es } hop]
    simp only [checkBusyStep_eq]
    split
    · rfl
    · split <;> rfl
  · rw [busyStep_search s hop, busyStep_search { s with events := es } hop]
    simp only [searchBusyStep_eq]
    split
    · exact hc s
    · split
      · exact hc (repeatedState .test s)
      · rfl
  · rw [busyStep_genks s hop, busyStep_genks { s with events := es } hop]
    simp only [genksBusyStep_eq]
    split
    · exact hg s
    · split
      · exact hg (repeatedState .live s)
      · rfl

end Sys2Proof.Machine
end

