-- ==== Sys2Proof/Laws/Run.lean ====
section
/-!
SUPPORT. Whole detector runs: the table after n clocks (spec/42_detector.md R164), and the block's state after n busy steps
of a run on the test engine and of a GENKS.
-/
namespace Sys2Proof.Machine

theorem two_pow_le_of_le {a b : Nat} (h : a ≤ b) : 2 ^ a ≤ 2 ^ b :=
  Nat.pow_le_pow_right (by decide) h

/-- A counter below `2^30` does not wrap (spec/00_scope.md R8). -/
theorem toNat_succ (v : Word) (h : v.toNat < 2 ^ 30) : (v + 1#32).toNat = v.toNat + 1 := by
  rw [BitVec.toNat_add]
  simp
  omega

/-! ## Where a run stops -/

/-- Every run stops somewhere (R164, R173). -/
theorem exists_stopsAt (x : Engine) : ∃ c, StopsAt x c := by
  classical
  have hex : ∃ c, c = 2 ^ x.m - 1 ∨ ¬ DistinctUpTo x (c + 1) := ⟨_, .inl rfl⟩
  have hmin : ∀ k, k < Nat.find hex → DistinctUpTo x (k + 1) := fun k hk => by
    by_contra hno
    exact Nat.find_min hex hk (.inr hno)
  have hd : DistinctUpTo x (Nat.find hex) := by
    rcases Nat.eq_zero_or_pos (Nat.find hex) with h | h
    · rw [h]
      intro i j _ hj
      omega
    · have hlast := hmin (Nat.find hex - 1) (by omega)
      rwa [show Nat.find hex - 1 + 1 = Nat.find hex by omega] at hlast
  refine ⟨Nat.find hex, hd, Nat.find_min' hex (.inl rfl), ?_⟩
  rcases Nat.find_spec hex with h | h
  · exact .inl h
  · right
    by_contra hno
    refine h fun i j hij hj he => ?_
    rcases Nat.lt_succ_iff_lt_or_eq.1 hj with hlt | heq
    · exact hd i j hij hlt he
    · exact hno ⟨i, heq ▸ hij, heq ▸ he.symm⟩

/-! ## The detector after n clocks -/

/-- The detector after `n` clocks of a run that started on engine `x` and has met no repeat (R164). -/
structure TableAt (x : Engine) (n : Nat) (d : Detector) : Prop where
  cycle : d.cycle.toNat = n
  cap : d.ncap.toNat = 2 ^ x.m - 1
  count : d.seenCount = d.cycle
  norepeat : d.repeated = false
  first : d.repeatFirst = 0#32
  seen : ∀ v : Word, d.hasSeen v = true ↔ ∃ j, j < n ∧ orbitState x j = v
  index : ∀ j, j < n → (Memory.read d.seenIdx (orbitState x j).toNat).toNat = j

/-- DetStart gives the empty table (R161). -/
theorem tableAt_start (x : Engine) (d : Detector) (h : x.m ≤ 30) : TableAt x 0 (detStart x.m d) :=
  ⟨rfl, toNat_mask x.m (by omega), rfl, rfl, rfl,
    fun v => by
      rw [hasSeen_iff]
      show Memory.read [] _ = _ ↔ _
      simp [Memory.read_nil],
    by simp⟩

/-- One more clock enters one more state (R162, R164). -/
theorem tableAt_step (x : Engine) (n : Nat) (d : Detector) (hx : x.m ≤ 30) (h : TableAt x n d)
    (hn : n < 2 ^ x.m - 1) (hnew : d.hasSeen (orbitState x n) = false) :
    TableAt x (n + 1) (d.record (orbitState x n)) := by
  have hp : 2 ^ x.m ≤ 2 ^ 30 := two_pow_le_of_le hx
  have hs : (d.cycle + 1#32).toNat = n + 1 := by
    rw [toNat_succ _ (by rw [h.cycle]; omega), h.cycle]
  refine ⟨hs, h.cap, ?_, h.norepeat, h.first, ?_, ?_⟩
  · show d.seenCount + 1#32 = d.cycle + 1#32
    rw [h.count]
  · intro v
    rw [hasSeen_iff, read_record_seenValid]
    split
    · rename_i hv
      simp only [true_iff]
      exact ⟨n, by omega, (BitVec.eq_of_toNat_eq hv).symm⟩
    · rename_i hv
      rw [← hasSeen_iff, h.seen]
      constructor
      · rintro ⟨j, hj, e⟩
        exact ⟨j, by omega, e⟩
      · rintro ⟨j, hj, e⟩
        refine ⟨j, ?_, e⟩
        rcases Nat.lt_succ_iff_lt_or_eq.1 hj with hlt | heq
        · exact hlt
        · exact absurd (by rw [← e, heq]) hv
  · intro j hj
    rw [read_record_seenIdx]
    rcases Nat.lt_succ_iff_lt_or_eq.1 hj with hlt | heq
    · split
      · rename_i hv
        have : d.hasSeen (orbitState x n) = true := (h.seen _).2 ⟨j, hlt, BitVec.eq_of_toNat_eq hv⟩
        rw [hnew] at this
        cases this
      · exact h.index j hlt
    · rw [heq, if_pos rfl, h.cycle]

/-- A state of a repeat-free stretch is new. -/
theorem not_seen_of_distinct (x : Engine) (n c : Nat) (d : Detector) (h : TableAt x n d)
    (hd : DistinctUpTo x c) (hn : n < c) : d.hasSeen (orbitState x n) = false := by
  cases e : d.hasSeen (orbitState x n) with
  | false => rfl
  | true =>
    obtain ⟨j, hj, he⟩ := (h.seen _).1 e
    exact absurd he (hd j n hj hn)

/-- The cap is reached exactly after `2^m - 1` clocks. -/
theorem cycle_eq_ncap_iff (x : Engine) (n : Nat) (d : Detector) (h : TableAt x n d) :
    d.cycle = d.ncap ↔ n = 2 ^ x.m - 1 := by
  rw [← BitVec.toNat_inj, h.cycle, h.cap]

/-- Where a run stops below the cap, the state has been seen (R164). -/
theorem seen_of_stopsAt (x : Engine) (c : Nat) (d : Detector) (h : TableAt x c d)
    (hs : StopsAt x c) (hne : d.cycle ≠ d.ncap) : d.hasSeen (orbitState x c) = true := by
  rcases hs.stops with e | ⟨j, hj, e⟩
  · exact absurd ((cycle_eq_ncap_iff x c d h).2 e) hne
  · exact (h.seen _).2 ⟨j, hj, e.symm⟩

/-! ## Busy steps on the test engine -/

/-- The state after `n` clocks of a CHECK, or of one candidate of a SEARCH, that began in `t` on engine `x`. -/
structure TestRun (x : Engine) (n : Nat) (t u : State) : Prop where
  engine : u.test = orbit x n
  table : TableAt x n u.det
  frame : u = { t with test := u.test, det := u.det }

theorem testRun_step (x : Engine) (n c : Nat) (t u : State) (hx : x.m ≤ 30)
    (h : TestRun x n t u) (hop : u.op = .check ∨ u.op = .search) (hd : DistinctUpTo x c)
    (hn : n < c) (hc : c ≤ 2 ^ x.m - 1) : TestRun x (n + 1) t (busyStep u) := by
  have h1 : u.det.cycle ≠ u.det.ncap := fun e => by
    have := (cycle_eq_ncap_iff x n u.det h.table).1 e
    omega
  have hnew := not_seen_of_distinct x n c u.det h.table hd hn
  have h2 : u.det.hasSeen u.test.r = false := by
    rw [h.engine]
    exact hnew
  have e : busyStep u = clockedState .test u := by
    rcases hop with hop | hop
    · rw [busyStep_check u hop, checkBusyStep_eq, if_neg h1, if_neg (by simp [h2])]
    · rw [busyStep_search u hop, searchBusyStep_eq, if_neg h1, if_neg (by simp [h2])]
  have h3 := tableAt_step x n u.det hx h.table (by omega) hnew
  refine ⟨?_, ?_, ?_⟩
  · rw [e]
    show shiftStep u.test = _
    rw [h.engine]
    rfl
  · rw [e]
    show TableAt x (n + 1) (u.det.record u.test.r)
    rw [h.engine]
    exact h3
  · rw [e]
    have hf := h.frame
    conv_lhs => rw [clockedState]
    rw [hf]
    rfl

/-- A run on the test engine, up to any clock before it stops. -/
theorem testRun_busySteps (x : Engine) (c : Nat) (t : State) (hx : x.m ≤ 30) (h : TestRun x 0 t t)
    (hop : t.op = .check ∨ t.op = .search) (hd : DistinctUpTo x c) (hc : c ≤ 2 ^ x.m - 1) :
    ∀ n, n ≤ c → TestRun x n t (busySteps n t) := by
  intro n
  induction n with
  | zero => exact fun _ => h
  | succ n ih =>
    intro hn
    have hi := ih (by omega)
    rw [busySteps_succ]
    refine testRun_step x n c t _ hx hi ?_ hd (by omega) hc
    have : (busySteps n t).op = t.op := by rw [hi.frame]
    rwa [this]

/-! ## Busy steps of GENKS -/

/-- The state after `n` clocks of a GENKS that began in `t` on engine `x` (R203, R205, R206). -/
structure GenksRun (x : Engine) (n : Nat) (t u : State) : Prop where
  engine : u.live = orbit x n
  table : TableAt x n u.det
  ones : u.det.ones = true ↔ ∃ k, k < n ∧ output (orbit x k) = true
  written : ∀ k, k < n → Memory.read u.ks.buf k = BitVec.ofBool (output (orbit x k))
  above : ∀ k, n ≤ k → Memory.read u.ks.buf k = Memory.read t.ks.buf k
  length : u.ks.len = t.ks.len
  trace : u.traced = t.traced ++ (List.range n).map (recordAt x)
  frame : u = { t with
    live := u.live, det := u.det, ks := u.ks, lastOut := u.lastOut, lastFb := u.lastFb
    traced := u.traced }

theorem genksRun_step (x : Engine) (n c : Nat) (t u : State) (hx : x.m ≤ 30)
    (h : GenksRun x n t u) (hop : u.op = .genks) (hd : DistinctUpTo x c) (hn : n < c)
    (hc : c ≤ 2 ^ x.m - 1) : GenksRun x (n + 1) t (busyStep u) := by
  have hp := two_pow_le_of_le hx
  have h1 : u.det.cycle ≠ u.det.ncap := fun e => by
    have := (cycle_eq_ncap_iff x n u.det h.table).1 e
    omega
  have hnew := not_seen_of_distinct x n c u.det h.table hd hn
  have h2 : u.det.hasSeen u.live.r = false := by
    rw [h.engine]
    exact hnew
  have e : busyStep u =
      storeClock u.det.cycle u.live.r (feedback u.live) (output u.live) (clockedState .live u) := by
    rw [busyStep_genks u hop, genksBusyStep_eq, if_neg h1, if_neg (by simp [h2])]
  have h3 := tableAt_step x n u.det hx h.table (by omega) hnew
  have hout : output u.live = output (orbit x n) := by rw [h.engine]
  have hbuf : ∀ k, Memory.read (busyStep u).ks.buf k =
      if k = n then BitVec.ofBool (output (orbit x n)) else Memory.read u.ks.buf k := by
    intro k
    rw [e]
    show Memory.read (Memory.write u.ks.buf u.det.cycle.toNat _) k = _
    rw [Memory.read_write, h.table.cycle, hout]
  refine ⟨?_, ?_, ?_, ?_, ?_, ?_, ?_, ?_⟩
  · rw [e]
    show shiftStep u.live = _
    rw [h.engine]
    rfl
  · rw [e]
    have hr : TableAt x (n + 1) (u.det.record u.live.r) := by
      rw [h.engine]
      exact h3
    exact ⟨hr.cycle, hr.cap, hr.count, hr.norepeat, hr.first, hr.seen, hr.index⟩
  · rw [e]
    show (u.det.ones || output u.live) = true ↔ _
    rw [Bool.or_eq_true, h.ones, hout]
    constructor
    · rintro (⟨k, hk, ho⟩ | ho)
      · exact ⟨k, by omega, ho⟩
      · exact ⟨n, by omega, ho⟩
    · rintro ⟨k, hk, ho⟩
      rcases Nat.lt_succ_iff_lt_or_eq.1 hk with hlt | heq
      · exact .inl ⟨k, hlt, ho⟩
      · exact .inr (heq ▸ ho)
  · intro k hk
    rw [hbuf k]
    split
    · rename_i hkn
      rw [hkn]
    · exact h.written k (by omega)
  · intro k hk
    rw [hbuf k, if_neg (by omega)]
    exact h.above k (by omega)
  · rw [e]
    exact h.length
  · rw [e]
    show u.traced ++ _ = _
    rw [h.trace, List.range_succ, List.map_append, List.append_assoc]
    have hk : u.det.cycle = BitVec.ofNat 32 n :=
      BitVec.eq_of_toNat_eq (by rw [h.table.cycle, BitVec.toNat_ofNat]; omega)
    rw [hk, h.engine]
    rfl
  · rw [e]
    have hf := h.frame
    conv_lhs => rw [storeClock, clockedState]
    rw [hf]
    rfl

/-- A GENKS run, up to any clock before it stops. -/
theorem genksRun_busySteps (x : Engine) (c : Nat) (t : State) (hx : x.m ≤ 30)
    (h : GenksRun x 0 t t) (hop : t.op = .genks) (hd : DistinctUpTo x c)
    (hc : c ≤ 2 ^ x.m - 1) : ∀ n, n ≤ c → GenksRun x n t (busySteps n t) := by
  intro n
  induction n with
  | zero => exact fun _ => h
  | succ n ih =>
    intro hn
    have hi := ih (by omega)
    rw [busySteps_succ]
    refine genksRun_step x n c t _ hx hi ?_ hd (by omega) hc
    have : (busySteps n t).op = t.op := by rw [hi.frame]
    rwa [this]

end Sys2Proof.Machine
end

