-- ==== Sys2Proof/Tests/Slice0.lean ====
section
/-!
SUPPORT. The model's own tests. Expected values come from spec/ (the vectors of 95_test_vectors.md and the examples of the
rules), never from the model. The second half shows, for every statement with hypotheses, a state that meets them.
-/
open Sys2Proof Sys2Proof.Machine

set_option maxRecDepth 100000

namespace Sys2Proof.Tests

/-! ## Small states -/

/-- The state a step answers, if it answers one. -/
def answered (a : Answer) : Option State :=
  match a with
  | .next s => some s
  | .fault _ => none
  | .refused _ => none

/-- The refusal a step answers, if it answers one. -/
def refusal (a : Answer) : Option Refusal :=
  match a with
  | .next _ => none
  | .fault _ => none
  | .refused r => some r

/-- The registers at the given offsets, in the state a step answers. -/
def window (a : Answer) (offs : List Nat) : Option (List Word) :=
  (answered a).map fun s => offs.map (hostRead s)

/-- Reset, with the vectors' MMAX = 16. -/
def fresh : State := State.resetAt 16

/-- Reset, with the three operand registers written. -/
def configured (width seed taps : Word) : State :=
  { fresh with conf := { fresh.conf with width := width, seed := seed, taps := taps } }

/-- Reset, with a loaded engine. -/
def loadedWith (m : Nat) (r t : Word) : State :=
  { fresh with live := { m := m, r := r, t := t }, loaded := true }

/-- A command running on the test engine, after the clocks that entered the listed states in their order. -/
def testing (op : Op) (x : Engine) (seen : List Word) : State :=
  { fresh with
    op := op
    test := x
    det := seen.foldl (fun d v => d.record v) (detStart x.m fresh.det) }

/-- A GENKS running on a loaded engine, after the clocks that entered the listed states. -/
def keystreaming (x : Engine) (seen : List Word) (ones : Bool) : State :=
  { loadedWith x.m x.r x.t with
    op := .genks
    det := { seen.foldl (fun d v => d.record v) (detStart x.m fresh.det) with ones := ones } }

/-- The host's next event. -/
def facing (e : Event) (s : State) : State := { s with events := [e] }

/-! ## Decoding, from the encodings of R100 and R102 -/

theorem test_decode_nop : decode 0b00000000000000000000000000000000#32 = .command .nop := by decide
theorem test_decode_load : decode 0b00000000000000000000000000000001#32 = .command .load := by decide
theorem test_decode_shift : decode 0b00000000000000000000000000000010#32 = .command .shift := by decide
theorem test_decode_check : decode 0b00000000000000000000000000000011#32 = .command .check := by decide
theorem test_decode_search : decode 0b00000000000000000000000000000100#32 = .command .search := by decide
theorem test_decode_genks : decode 0b00000000000000000000000000000101#32 = .command .genks := by decide
theorem test_decode_cancel : decode 0b00000000000000000000000000000110#32 = .command .cancel := by decide

/-- V-K1 to V-K3, V-K7: a reserved opcode, a nonzero RSV over LOAD and over CANCEL, all ones. -/
theorem test_decode_illegal :
    decode 0x7#32 = .illegal .reservedOpcode ∧ decode 0xF#32 = .illegal .reservedOpcode ∧
    decode 0x11#32 = .illegal .reservedField ∧ decode 0x16#32 = .illegal .reservedField ∧
    decode 0xFFFFFFFF#32 = .illegal .reservedField := by decide

theorem test_table_word :
    decodeTableWord 32 6 = some .cancel ∧ decodeTableWord 32 7 = none ∧
    decodeTableWord 32 0x10 = none := by decide

/-- The table's word, placed as the next event, runs from reset: SHIFT ends with NotLoaded (V-H1: STATUS 0x42). -/
theorem test_placed_word_runs :
    window (step (State.reset.withFetchWord 32 2)) [0x04] = some [0x42#32] := by decide

/-! ## Ill-formed accesses (R74, V-M7) -/

theorem test_wf_width :
    ({ bits := 16, off := 0x04, kind := .read } : Access).wf = false ∧
    refusal (step (facing (.access { bits := 16, off := 0x04, kind := .read }) fresh)) =
      some (.accessWidth 16) := by decide

theorem test_wf_alignment :
    ({ bits := 32, off := 0x02, kind := .read } : Access).wf = false ∧
    refusal (step (facing (.access { bits := 32, off := 0x02, kind := .read }) fresh)) =
      some (.accessMisaligned 0x02) := by decide

theorem test_wf_window :
    ({ bits := 32, off := 0x100, kind := .write 1#32 } : Access).wf = false ∧
    refusal (step (facing (.access { bits := 32, off := 0x100, kind := .write 1#32 }) fresh)) =
      some (.accessOutsideWindow 0x100) := by decide

theorem test_wf_event :
    (Event.access { bits := 8, off := 0x00, kind := .read }).wf = false ∧
    (Event.access { bits := 32, off := 0xFC, kind := .read }).wf = true := by decide

/-! ## The host window -/

/-- V-M1 and V-M2: every register reads 0 from reset, and PARAM reads MMAX. -/
theorem test_reset_window :
    (List.range 17).map (fun k => hostRead fresh (4 * k)) = List.replicate 17 0#32 ∧
    hostRead fresh 0x44 = 0x10#32 ∧ hostRead fresh 0x48 = 0#32 ∧ hostRead fresh 0xFC = 0#32 := by
  decide

/-- V-M8: SEED is stored in full. V-M5 and V-M6: STATUS and a reserved offset ignore writes. -/
theorem test_host_writes :
    window (step (facing (wr .SEED 0xFFFFFFFF#32) fresh)) [0x0C] = some [0xFFFFFFFF#32] ∧
    window (step (facing (wr .STATUS 0xFFFFFFFF#32) fresh)) [0x04] = some [0#32] ∧
    window (step (facing (.access { bits := 32, off := 0x80, kind := .write 1#32 }) fresh)) [0x80] =
      some [0#32] := by decide

/-- A read goes to the host and leaves the block alone (R72). -/
theorem test_host_read :
    (answered (step (facing (rd .PARAM) fresh))).map State.reads = some [(0x44, 0x10#32)] := by decide

/-! ## NOP and CANCEL (R125, R126) -/

/-- The example of R125: idle with ERR = 1, then ERR = 0 and DONE = 1. -/
theorem test_nop_clears :
    window (exec .nop { fresh with doneBit := true, err := .invalidConfig }) [0x04] =
      some [0x2#32] := by decide

/-- V-K6's rejection: STATUS 0x9. -/
theorem test_nop_busy :
    window (exec .nop (testing .check ⟨4, 0x8#32, 0xC#32⟩ [0xF#32, 0xE#32, 0xC#32]))
      [0x04, 0x24, 0x3C] = some [0x9#32, 3#32, 0x8#32] := by decide

/-- V-K5. -/
theorem test_cancel_idle : window (exec .cancel fresh) [0x04] = some [0x2#32] := by decide

/-- V-K8: from STATUS 0x9, CYCLE 3 and TSTATE 0x8 stay. -/
theorem test_cancel_busy :
    window (exec .cancel
        { testing .check ⟨4, 0x8#32, 0xC#32⟩ [0xF#32, 0xE#32, 0xC#32] with rejected := true })
      [0x04, 0x24, 0x3C] = some [0x52#32, 3#32, 0x8#32] := by decide

/-! ## LOAD and SHIFT (R145, R146) -/

/-- V-L1. -/
theorem test_load :
    window (exec .load (configured 4#32 0xF#32 0xC#32)) [0x04, 0x18, 0x1C, 0x20] =
      some [0x6#32, 0xF#32, 0xC#32, 0x400#32] := by decide

/-- V-L10: a failed LOAD keeps the engine. -/
theorem test_load_fails :
    window (exec .load { configured 4#32 0x10#32 0xC#32 with
        live := { m := 3, r := 0x5#32, t := 0x6#32 }, loaded := true }) [0x04, 0x18, 0x1C, 0x20] =
      some [0x16#32, 0x5#32, 0x6#32, 0x304#32] := by decide

/-- V-H2: the output bit is the old bit 3. -/
theorem test_shift :
    window (exec .shift (loadedWith 4 0xF#32 0xC#32)) [0x04, 0x18, 0x20] =
      some [0x6#32, 0xE#32, 0x401#32] := by decide

/-- V-H5: the feedback enters bit 0. -/
theorem test_shift_feedback :
    window (exec .shift (loadedWith 4 0x8#32 0xC#32)) [0x04, 0x18, 0x20] =
      some [0x6#32, 0x1#32, 0x403#32] := by decide

/-- V-E1: every state of m = 3 under taps 0x6. -/
theorem test_shift_step :
    [0#32, 1#32, 2#32, 3#32, 4#32, 5#32, 6#32, 7#32].map (fun r => (shiftStep ⟨3, r, 6#32⟩).r) =
      [0#32, 2#32, 5#32, 7#32, 1#32, 3#32, 4#32, 6#32] := by decide

/-! ## CHECK (R165, R166) -/

/-- V-K6's start: STATUS 0x1, TSTATE all ones, CYCLE 0. -/
theorem test_check_starts :
    window (exec .check (configured 4#32 0#32 0xC#32)) [0x04, 0x24, 0x3C, 0x40] =
      some [0x1#32, 0#32, 0xF#32, 0xC#32] := by decide

/-- The end of the example of R165: at CYCLE = 7 = NCAP the run passes (STATUS 0x102). -/
theorem test_check_passes :
    (let s := busyStep (testing .check ⟨3, 0x7#32, 0x6#32⟩
        [7#32, 6#32, 4#32, 1#32, 2#32, 5#32, 3#32])
     [0x04, 0x24, 0x28, 0x3C].map (hostRead s)) = [0x102#32, 7#32, 0#32, 0x7#32] := by decide

/-! ## SEARCH (R183, R184) -/

/-- V-S17: acceptance. -/
theorem test_search_starts :
    window (exec .search (configured 5#32 0#32 0#32)) [0x04, 0x2C, 0x3C, 0x40] =
      some [0x1#32, 1#32, 0x1F#32, 0x11#32] := by decide

/-- V-S18: the last candidate of m = 3 fails on a repeat; the fallback set is 0x6 and STATUS 0xC02. -/
theorem test_search_fallback :
    (let s := busyStep { testing .search ⟨3, 0x7#32, 0x7#32⟩ [7#32] with
        search := { fresh.search with searchI := 3#32 } }
     [0x04, 0x2C, 0x30].map (hostRead s)) = [0xC02#32, 3#32, 0x6#32] := by decide

/-! ## GENKS (R200, R203, R204) -/

/-- V-G1's first clock: the record (0,7,0,1), STATE 0x6, LAST_OUT 1, the first keystream bit 1. -/
theorem test_genks_clock :
    (let s := busyStep (keystreaming ⟨3, 0x7#32, 0x6#32⟩ [] false)
     (s.traced, hostRead s 0x18, s.lastOut, Memory.read s.ks.buf 0)) =
      ([{ k := 0#32, s := 7#32, fb := false, out := true }], 0x6#32, true, 1#1) := by decide

/-- V-G3's last step: STATUS 0x826, CYCLE 1, KSLEN 0. -/
theorem test_genks_degenerate :
    (let s := busyStep (keystreaming ⟨4, 0#32, 0xC#32⟩ [0#32] false)
     [0x04, 0x24, 0x34].map (hostRead s)) = [0x826#32, 1#32, 0#32] := by decide

/-! ## Illegal words, reset -/

/-- V-K1: STATUS 0x32. -/
theorem test_illegal_idle :
    window (step (facing (wr .CMD 0x7#32) fresh)) [0x04] = some [0x32#32] := by decide

/-- Reset abandons a running command (R400): STATUS 0, CYCLE 0, the records stay. -/
theorem test_reset_event :
    ((answered (step (facing .reset (busyStep (keystreaming ⟨3, 7#32, 6#32⟩ [] false))))).map
      fun s => (s.traced.length, hostRead s 0x04, hostRead s 0x24, hostRead s 0x18)) =
      some (1, 0#32, 0#32, 0#32) := by decide

/-! ## States that meet the invariant -/

theorem read_nil_ne_one (a : Nat) : Memory.read ([] : Memory 1) a ≠ 1#1 := by simp

/-- The parts of the invariant that are about finitely many numbers. -/
abbrev EngineNumbers (s : State) : Prop :=
  2 ≤ s.mmax ∧ s.mmax ≤ 30 ∧
  s.live.m ≤ s.mmax ∧ s.live.r.toNat < 2 ^ s.live.m ∧ s.live.t.toNat < 2 ^ s.live.m ∧
  s.test.m ≤ s.mmax ∧ s.test.r.toNat < 2 ^ s.test.m ∧ s.test.t.toNat < 2 ^ s.test.m ∧
  (s.loaded = true → 2 ≤ s.live.m) ∧
  (s.loaded = false → s.live = Engine.reset ∧ s.lastOut = false ∧ s.lastFb = false) ∧
  (s.op = .check ∨ s.op = .search → 2 ≤ s.test.m)

abbrev StatusNumbers (s : State) : Prop :=
  (s.op ≠ .idle → s.doneBit = false ∧ s.err = .ok) ∧ (s.op = .check → s.primitive = false) ∧
  (s.op = .search → s.primitive = false ∧ s.search.resultTaps = 0#32 ∧
    s.search.verified = false ∧ s.search.fallback = false) ∧
  (s.op = .genks → s.loaded = true ∧ s.ks.len = 0#32)

abbrev DetectorNumbers (s : State) : Prop :=
  Memory.wf s.det.seenValid = true ∧ Memory.wf s.det.seenIdx = true ∧
  s.det.ncap.toNat < 2 ^ s.mmax ∧ s.det.cycle.toNat ≤ s.det.ncap.toNat ∧
  s.det.seenCount = s.det.cycle ∧ (s.det.repeated = false → s.det.repeatFirst = 0#32) ∧
  (s.op ≠ .idle → s.det.ncap.toNat = 2 ^ runWidth s - 1 ∧ s.det.repeated = false) ∧
  (s.op ≠ .idle → s.det.seenValid.length = s.det.cycle.toNat)

abbrev ResultNumbers (s : State) : Prop :=
  s.search.resultTaps.toNat < 2 ^ s.mmax ∧
  ¬ (s.search.verified = true ∧ s.search.fallback = true) ∧
  (s.op = .search → 1 ≤ s.search.searchI.toNat ∧
    s.search.searchI.toNat ≤ 2 ^ (s.test.m - 1) - 1 ∧
    s.test.t = cand s.test.m s.search.searchI) ∧
  s.ks.buf = [] ∧ s.ks.len.toNat ≤ 2 ^ s.mmax - 1

theorem inv_of_numbers (s : State) (he : EngineNumbers s) (hs : StatusNumbers s)
    (hd : DetectorNumbers s) (hr : ResultNumbers s)
    (inside : s.op ≠ .idle → ∀ a, Memory.read s.det.seenValid a = 1#1 → a < 2 ^ runWidth s) :
    Inv s := by
  obtain ⟨a1, a2, b1, b2, b3, c1, c2, c3, d1, d2, d3⟩ := he
  obtain ⟨e1, e2, e3, e4⟩ := hs
  obtain ⟨f1, f2, f3, f4, f5, f6, f7, f8⟩ := hd
  obtain ⟨g1, g2, g3, k1, k2⟩ := hr
  exact ⟨⟨a1, a2⟩, ⟨⟨b1, b2, b3⟩, ⟨c1, c2, c3⟩, d1, d2, d3⟩, ⟨e1, e2, e3, e4⟩,
    ⟨f1, f2, f3, f4, f5, f6, f7, f8, inside⟩, ⟨g1, g2, g3⟩,
    ⟨by rw [k1]; rfl, fun k h => by rw [k1] at h; exact absurd h (read_nil_ne_one k), k2⟩⟩

theorem inv_fresh : Inv fresh := inv_of_numbers _ (by decide) (by decide) (by decide) (by decide) fun h => absurd rfl h

/-- The four operand sets the witnesses use. -/
theorem inv_configured :
    Inv (configured 3#32 0#32 6#32) ∧ Inv (configured 2#32 0#32 1#32) ∧
    Inv (configured 5#32 0#32 0#32) :=
  ⟨inv_of_numbers _ (by decide) (by decide) (by decide) (by decide) fun h => absurd rfl h,
    inv_of_numbers _ (by decide) (by decide) (by decide) (by decide) fun h => absurd rfl h,
    inv_of_numbers _ (by decide) (by decide) (by decide) (by decide) fun h => absurd rfl h⟩

/-- V-G1's and V-G3's loaded engines. -/
theorem inv_loaded : Inv (loadedWith 3 7#32 6#32) ∧ Inv (loadedWith 4 0#32 0xC#32) :=
  ⟨inv_of_numbers _ (by decide) (by decide) (by decide) (by decide) fun h => absurd rfl h,
    inv_of_numbers _ (by decide) (by decide) (by decide) (by decide) fun h => absurd rfl h⟩

/-- A CHECK of V-C8's tap set, just accepted. -/
theorem inv_checking : Inv (testing .check ⟨3, 7#32, 6#32⟩ []) :=
  inv_of_numbers _ (by decide) (by decide) (by decide) (by decide) fun _ a h => absurd h (read_nil_ne_one a)

/-- A GENKS of V-G1, just accepted. -/
theorem inv_keystreaming : Inv (keystreaming ⟨3, 7#32, 6#32⟩ [] false) :=
  inv_of_numbers _ (by decide) (by decide) (by decide) (by decide) fun _ a h => absurd h (read_nil_ne_one a)

/-- A SEARCH of m = 2 whose one candidate has made its three clocks. -/
def searchEnding : State :=
  { testing .search ⟨2, 3#32, 3#32⟩ [3#32, 2#32, 1#32] with
    search := { fresh.search with searchI := 1#32 } }

theorem inv_searchEnding : Inv searchEnding := by
  refine inv_of_numbers _ (by decide) (by decide) (by decide) (by decide) fun _ a h => ?_
  have hw : runWidth searchEnding = 2 := by decide
  have hs : searchEnding.det.seenValid = [(1, 1#1), (2, 1#1), (3, 1#1)] := by decide
  rw [hw]
  by_contra hlt
  have h4 : ¬ a < 4 := hlt
  rw [hs] at h
  simp [Memory.read, show ¬ 1 = a by omega, show ¬ 2 = a by omega, show ¬ 3 = a by omega,
    Memory.blank] at h

/-! ## Trajectories from the spec's vectors -/

theorem distinct_of_nodup (x : Engine) (c : Nat)
    (h : ((List.range c).map (orbitState x)).Nodup) : DistinctUpTo x c := by
  intro i j hij hj e
  have := List.inj_on_of_nodup_map h (List.mem_range.2 (by omega)) (List.mem_range.2 hj) e
  omega

/-- V-C8: seven states under taps 0x6 at m = 3, then the cap. -/
theorem stops_at_cap : StopsAt (testEngine 3 6#32) 7 :=
  ⟨distinct_of_nodup _ _ (by decide), by decide, .inl (by decide)⟩

/-- R170: taps 0x1 at m = 2 repeat at CYCLE = 1. -/
theorem stops_at_repeat : StopsAt (testEngine 2 1#32) 1 :=
  ⟨distinct_of_nodup _ _ (by decide), by decide, .inr ⟨0, by decide, by decide⟩⟩

/-- V-G3: the zero state repeats at CYCLE = 1. -/
theorem stops_at_zero : StopsAt (⟨4, 0#32, 0xC#32⟩ : Engine) 1 :=
  ⟨distinct_of_nodup _ _ (by decide), by decide, .inr ⟨0, by decide, by decide⟩⟩

/-- V-S4: at m = 5 candidate 1 fails (its run repeats within 31 clocks) and candidate 2 passes. -/
theorem search_five :
    ¬ Passes 5 (cand 5 (BitVec.ofNat 32 1)) ∧ Passes 5 (cand 5 (BitVec.ofNat 32 2)) :=
  ⟨fun h => h 0 21 (by decide) (by decide) (by decide), distinct_of_nodup _ _ (by decide)⟩

/-! ## A witness for the hypotheses of every statement that has some -/

/-- A busy state in which the completing step comes next: V-C8's run at its cap. -/
def checkEnding : State :=
  testing .check ⟨3, 0x7#32, 0x6#32⟩ [7#32, 6#32, 4#32, 1#32, 2#32, 5#32, 3#32]

theorem witness_DecodingIsTotalAndExact :
    ((0x6#32).toNat / 16 = 0 ∧ (0x6#32).toNat % 16 ≤ 6) ∧
    ¬ ((0x7#32).toNat / 16 = 0 ∧ (0x7#32).toNat % 16 ≤ 6) ∧
    ¬ ((0x10#32).toNat / 16 = 0 ∧ (0x10#32).toNat % 16 ≤ 6) := by decide

theorem witness_StepRunsTheDecodedCommand :
    decode 0x3#32 = .command .check ∧ (facing (wr .CMD 0x3#32) fresh).events = wr .CMD 0x3#32 :: [] := by
  decide

theorem witness_IllegalWordWhileIdle :
    (facing (wr .CMD 0x7#32) fresh).op = .idle ∧
    (facing (wr .CMD 0x7#32) fresh).events = wr .CMD 0x7#32 :: [] ∧ 7 ≤ (0x7#32).toNat % 16 ∧
    (0x10#32).toNat / 16 ≠ 0 ∧ fresh.loaded = false ∧ fresh.primitive = false ∧
    fresh.search.verified = false ∧ fresh.search.fallback = false ∧
    fresh.det.repeated = false := by decide

theorem witness_BusyRejectsAllButCancel :
    (facing (wr .CMD 0x16#32) checkEnding).op ≠ .idle ∧
    (facing (wr .CMD 0x16#32) checkEnding).events = wr .CMD 0x16#32 :: [] ∧
    (0x16#32 : Word) ≠ 0x6#32 ∧ (facing (wr .CMD 0x2#32) fresh).op = .idle ∧
    (facing (wr .CMD 0x2#32) fresh).events = wr .CMD 0x2#32 :: [] := by decide

theorem witness_AcceptedCommandCompletesOrRuns : fresh.op = .idle := by decide

theorem witness_FailedCommandChangesOnlyStatus :
    fresh.op = .idle ∧ (answered (exec .load fresh)).map State.err = some .invalidConfig ∧
    (answered (exec .shift fresh)).map State.err = some .notLoaded := by decide

theorem witness_NopCompletesWithOk : fresh.op = .idle ∧ checkEnding.op ≠ .idle := by decide

theorem witness_CancelEndsTheRunningCommand :
    fresh.op = .idle ∧
    (Inv (testing .check ⟨3, 7#32, 6#32⟩ []) ∧
      (testing .check ⟨3, 7#32, 6#32⟩ []).op = .check) ∧
    (Inv searchEnding ∧ searchEnding.op = .search) ∧
    (Inv (keystreaming ⟨3, 7#32, 6#32⟩ [] false) ∧
      (keystreaming ⟨3, 7#32, 6#32⟩ [] false).op = .genks) :=
  ⟨rfl, ⟨inv_checking, rfl⟩, ⟨inv_searchEnding, rfl⟩, ⟨inv_keystreaming, rfl⟩⟩

theorem witness_CancelRaceBothOrders :
    checkEnding.op ≠ .idle ∧ (busyStep checkEnding).op = .idle ∧
    ({ checkEnding with events := [cmd .cancel, .busy] } : State).events =
      [cmd .cancel, .busy] ++ [] ∧
    ({ checkEnding with events := [.busy, cmd .cancel] } : State).events =
      [.busy, cmd .cancel] ++ [] := by decide

theorem witness_ShiftStepMovesTheBits :
    (1 ≤ (⟨30, 0x20000001#32, 0x3FFFFFFF#32⟩ : Engine).m ∧
      (⟨30, 0x20000001#32, 0x3FFFFFFF#32⟩ : Engine).m ≤ 30 ∧
      (⟨30, 0x20000001#32, 0x3FFFFFFF#32⟩ : Engine).t.toNat < 2 ^ 30) ∧
    (1 ≤ (⟨1, 1#32, 0#32⟩ : Engine).m ∧ (⟨1, 1#32, 0#32⟩ : Engine).t.toNat < 2 ^ 1 ∧
      (⟨1, 1#32, 0#32⟩ : Engine).t = 0#32) := by decide

theorem witness_ShiftStepKeepsTheLength :
    1 ≤ (⟨4, 0xF#32, 0xC#32⟩ : Engine).m ∧
    (⟨4, 0xF#32, 0xC#32⟩ : Engine).r.toNat < 2 ^ (⟨4, 0xF#32, 0xC#32⟩ : Engine).m := by decide

theorem witness_ShiftStepIsLinear :
    (⟨3, 1#32 ^^^ 2#32, 6#32⟩ : Engine) = ⟨3, 3#32, 6#32⟩ ∧
    (⟨4, 0#32, 0xC#32⟩ : Engine).r = 0#32 := by decide

/-- V-E1 and V-E2: with and without tap m-1. -/
theorem witness_ShiftStepInvertibleIffTopTap :
    2 ≤ 3 ∧ 3 ≤ 30 ∧ (6#32).toNat < 2 ^ 3 ∧ (6#32).getLsbD (3 - 1) = true ∧
    (2#32).toNat < 2 ^ 3 ∧ (2#32).getLsbD (3 - 1) = false ∧ (7#32).toNat < 2 ^ 3 ∧
    (shiftStep ⟨3, 3#32, 6#32⟩).r = 7#32 := by decide

theorem witness_LoadBuildsTheLiveEngine :
    (configured 16#32 1#32 0x8016#32).op = .idle ∧
    (2 ≤ (16#32).toNat ∧ (16#32).toNat ≤ fresh.mmax ∧ (1#32).toNat < 2 ^ 16 ∧
      (0x8016#32).toNat < 2 ^ 16) ∧
    ¬ ((17#32).toNat ≤ fresh.mmax) ∧ (0x10#32).getLsbD 4 = true ∧ (0x1C#32).getLsbD 4 = true := by
  decide

theorem witness_ShiftClocksTheLiveEngine :
    (loadedWith 4 0xF#32 0xC#32).op = .idle ∧ (loadedWith 4 0xF#32 0xC#32).loaded = true ∧
    fresh.op = .idle ∧ fresh.loaded = false := by decide

/-- Each of the writers of E: LOAD, SHIFT, a GENKS busy step, reset. -/
theorem witness_LiveEngineHasThreeWriters :
    (answered (step (facing (cmd .load) (configured 4#32 0xF#32 0xC#32)))).map State.live =
      some ⟨4, 0xF#32, 0xC#32⟩ ∧
    (answered (step (facing (cmd .shift) (loadedWith 4 0xF#32 0xC#32)))).map State.live =
      some ⟨4, 0xE#32, 0xC#32⟩ ∧
    (answered (step (facing .busy (keystreaming ⟨3, 7#32, 6#32⟩ [] false)))).map State.live =
      some ⟨3, 6#32, 6#32⟩ ∧
    (answered (step (facing .reset (loadedWith 4 0xF#32 0xC#32)))).map State.live =
      some ⟨0, 0#32, 0#32⟩ ∧ checkEnding.op = .check ∧ searchEnding.op = .search := by decide

theorem witness_DetectorStartsEmpty : 30 ≤ 30 ∧ 2 ≤ 30 := by decide

/-- At the cap, on a repeat, and on a new state. -/
theorem witness_DetectorChecksThenClocks :
    checkEnding.det.cycle = checkEnding.det.ncap ∧
    ((testing .check ⟨2, 3#32, 1#32⟩ [3#32]).det.cycle ≠
        (testing .check ⟨2, 3#32, 1#32⟩ [3#32]).det.ncap ∧
      Memory.read (testing .check ⟨2, 3#32, 1#32⟩ [3#32]).det.seenValid 3 = 1#1) ∧
    ((testing .check ⟨3, 7#32, 6#32⟩ []).det.cycle ≠ (testing .check ⟨3, 7#32, 6#32⟩ []).det.ncap ∧
      Memory.read (testing .check ⟨3, 7#32, 6#32⟩ []).det.seenValid 7 = 0#1) := by decide

theorem witness_CheckStartsTheTest :
    (configured 16#32 0#32 0x8016#32).op = .idle ∧ fresh.mmax ≤ 30 ∧
    (2 ≤ (16#32).toNat ∧ (16#32).toNat ≤ fresh.mmax ∧ (0x8016#32).toNat < 2 ^ 16) ∧
    ¬ (2 ≤ (1#32).toNat) := by decide

theorem witness_CheckBusyStepTests :
    (testing .check ⟨3, 7#32, 6#32⟩ []).op = .check ∧
    (detIter .test (testing .check ⟨3, 7#32, 6#32⟩ [])).1 = .clocked 0#32 7#32 false true ∧
    checkEnding.op = .check ∧ (detIter .test checkEnding).1 = .cap ∧
    (detIter .test (testing .check ⟨2, 3#32, 1#32⟩ [3#32])).1 = .repeated := by decide

/-- A run to the cap and a run to a repeat. -/
theorem witness_CheckRunEndsWithItsVerdict :
    (Inv (configured 3#32 0#32 6#32) ∧ (configured 3#32 0#32 6#32).op = .idle ∧
      StopsAt (testEngine 3 6#32) 7 ∧ 7 = 2 ^ 3 - 1) ∧
    (Inv (configured 2#32 0#32 1#32) ∧ (configured 2#32 0#32 1#32).op = .idle ∧
      StopsAt (testEngine 2 1#32) 1 ∧ 1 ≠ 2 ^ 2 - 1 ∧
      orbitState (orbit (testEngine 2 1#32) 1) 0 = orbitState (testEngine 2 1#32) 0) :=
  ⟨⟨inv_configured.1, rfl, stops_at_cap, by decide⟩,
    ⟨inv_configured.2.1, rfl, stops_at_repeat, by decide, by decide⟩⟩

theorem witness_PassesIffMaximalLength :
    (3 ≤ 3 ∧ 3 ≤ 30 ∧ (6#32).toNat < 2 ^ 3 ∧ Passes 3 6#32) ∧
    ((2#32).toNat < 2 ^ 3 ∧ (2#32).getLsbD (3 - 1) = false) :=
  ⟨⟨by decide, by decide, by decide, stops_at_cap.distinct⟩, by decide⟩

theorem witness_CornerWidthTwoEmptyTaps :
    (configured 2#32 0#32 0#32).op = .idle ∧ (configured 2#32 0#32 0#32).mmax ≤ 30 ∧
    2 ≤ (configured 2#32 0#32 0#32).mmax ∧ (configured 2#32 0#32 0#32).conf.width = 2#32 ∧
    (configured 2#32 0#32 0#32).conf.taps = 0#32 := by decide

theorem witness_PeriodIsBounded :
    2 ≤ (testEngine 2 0#32).m ∧ (testEngine 2 0#32).m ≤ 30 ∧
    (testEngine 2 0#32).r.toNat < 2 ^ (testEngine 2 0#32).m ∧
    (testEngine 2 0#32).t.toNat < 2 ^ (testEngine 2 0#32).m := by decide

theorem witness_CandidateIsTopTapAndIndex :
    (2 ≤ 2 ∧ 1 ≤ (1#32).toNat ∧ (1#32).toNat ≤ 2 ^ (2 - 1) - 1) ∧
    (30 ≤ 30 ∧ 1 ≤ (0x1FFFFFFF#32).toNat ∧ (0x1FFFFFFF#32).toNat ≤ 2 ^ (30 - 1) - 1) := by decide

theorem witness_FallbackIsTheTwoTopTaps : (2 ≤ 2 ∧ 2 ≤ 30) ∧ (2 ≤ 30 ∧ 30 ≤ 30) := by decide

theorem witness_SearchStartsWithCandidateOne :
    (configured 2#32 0#32 0#32).op = .idle ∧ 2 ≤ (2#32).toNat ∧ (2#32).toNat ≤ fresh.mmax ∧
    ¬ (2 ≤ (1#32).toNat) ∧ ¬ ((17#32).toNat ≤ fresh.mmax) := by decide

/-- A candidate of m = 3 that fails on a repeat (taps 0x7 keep all-ones fixed), at index `i`. -/
def searchFailing (i : Word) : State :=
  { testing .search ⟨3, 7#32, 7#32⟩ [7#32] with search := { fresh.search with searchI := i } }

/-- A clock, a pass, the last candidate's failure (V-S18) and another candidate's failure. -/
theorem witness_SearchBusyStepAdvances :
    (detIter .test (testing .search ⟨3, 7#32, 5#32⟩ [])).1 = .clocked 0#32 7#32 false true ∧
    (searchEnding.op = .search ∧ (detIter .test searchEnding).1 = .cap ∧
      (detIter .test searchEnding).2.det.repeated = false ∧
      (detIter .test searchEnding).2.det.seenCount = (detIter .test searchEnding).2.det.ncap) ∧
    ((searchFailing 3#32).op = .search ∧ (detIter .test (searchFailing 3#32)).1 = .repeated ∧
      (detIter .test (searchFailing 3#32)).2.det.repeated = true ∧
      (detIter .test (searchFailing 3#32)).2.search.searchI = BitVec.ofNat 32 (2 ^ (3 - 1) - 1)) ∧
    ((detIter .test (searchFailing 2#32)).1 = .repeated ∧
      (detIter .test (searchFailing 2#32)).2.det.repeated = true ∧
      (detIter .test (searchFailing 2#32)).2.search.searchI ≠
        BitVec.ofNat 32 (2 ^ (3 - 1) - 1)) := by decide

theorem witness_SearchResultHoldsTheTopTap :
    Inv searchEnding ∧ searchEnding.op = .search ∧ (busyStep searchEnding).op = .idle :=
  ⟨inv_searchEnding, rfl, by decide⟩

/-- V-S4: m = 5, where candidate 1 fails and candidate 2 passes. -/
theorem witness_SearchReturnsTheFirstPassingCandidate :
    Inv (configured 5#32 0#32 0#32) ∧ (configured 5#32 0#32 0#32).op = .idle ∧
    1 ≤ 2 ∧ 2 ≤ 2 ^ (5 - 1) - 1 ∧ Passes 5 (cand 5 (BitVec.ofNat 32 2)) ∧
    ∀ j, 1 ≤ j → j < 2 → ¬ Passes 5 (cand 5 (BitVec.ofNat 32 j)) :=
  ⟨inv_configured.2.2, rfl, by decide, by decide, search_five.2, fun j h1 h2 => by
    rw [show j = 1 by omega]
    exact search_five.1⟩

theorem witness_GenksStartsOnTheLoadedEngine :
    (loadedWith 3 7#32 6#32).op = .idle ∧ (loadedWith 3 7#32 6#32).loaded = true ∧
    fresh.op = .idle ∧ fresh.loaded = false := by decide

theorem witness_GenksBusyStepStoresOneBit :
    (keystreaming ⟨3, 7#32, 6#32⟩ [] false).op = .genks ∧
    (detIter .live (keystreaming ⟨3, 7#32, 6#32⟩ [] false)).1 = .clocked 0#32 7#32 false true := by
  decide

/-- An end at the cap with a 1 bit, and an end on a repeat without one. -/
theorem witness_GenksCompletes :
    ((keystreaming ⟨2, 3#32, 3#32⟩ [3#32, 2#32, 1#32] true).op = .genks ∧
      (detIter .live (keystreaming ⟨2, 3#32, 3#32⟩ [3#32, 2#32, 1#32] true)).1 = .cap ∧
      (keystreaming ⟨2, 3#32, 3#32⟩ [3#32, 2#32, 1#32] true).det.ones = true) ∧
    ((detIter .live (keystreaming ⟨4, 0#32, 0xC#32⟩ [0#32] false)).1 = .repeated ∧
      (keystreaming ⟨4, 0#32, 0xC#32⟩ [0#32] false).det.ones = false) := by decide

/-- V-G1, whose first output is 1, and V-G3, which has no 1. -/
theorem witness_GenksRunProducesOnePeriod :
    (Inv (loadedWith 3 7#32 6#32) ∧ (loadedWith 3 7#32 6#32).op = .idle ∧
      (loadedWith 3 7#32 6#32).loaded = true ∧ StopsAt (loadedWith 3 7#32 6#32).live 7 ∧
      (0 < 7 ∧ output (orbit (loadedWith 3 7#32 6#32).live 0) = true)) ∧
    (Inv (loadedWith 4 0#32 0xC#32) ∧ StopsAt (loadedWith 4 0#32 0xC#32).live 1 ∧
      ∀ k, k < 1 → output (orbit (loadedWith 4 0#32 0xC#32).live k) = false) :=
  ⟨⟨inv_loaded.1, rfl, rfl, stops_at_cap, by decide, by decide⟩,
    ⟨inv_loaded.2, stops_at_zero, fun k hk => by
      rw [show k = 0 by omega]
      decide⟩⟩

theorem witness_DegenerateIffZeroStart :
    (Inv (loadedWith 3 7#32 6#32) ∧ (loadedWith 3 7#32 6#32).op = .idle ∧
      (loadedWith 3 7#32 6#32).loaded = true ∧ (loadedWith 3 7#32 6#32).live.r ≠ 0#32) ∧
    (Inv (loadedWith 4 0#32 0xC#32) ∧ (loadedWith 4 0#32 0xC#32).live.r = 0#32) :=
  ⟨⟨inv_loaded.1, rfl, rfl, by decide⟩, ⟨inv_loaded.2, rfl⟩⟩

theorem witness_GenksWithTopTapReturnsToItsStart :
    Inv (loadedWith 3 7#32 6#32) ∧ (loadedWith 3 7#32 6#32).op = .idle ∧
    (loadedWith 3 7#32 6#32).loaded = true ∧
    (loadedWith 3 7#32 6#32).live.t.getLsbD ((loadedWith 3 7#32 6#32).live.m - 1) = true :=
  ⟨inv_loaded.1, rfl, rfl, by decide⟩

/-- A GENKS clock that writes the first keystream bit. -/
theorem witness_OnlyGenksWritesTheBuffer :
    (keystreaming ⟨3, 7#32, 6#32⟩ [] false).events.head? ≠ some .reset ∧
    ((answered (step (keystreaming ⟨3, 7#32, 6#32⟩ [] false))).map
      fun t => Memory.read t.ks.buf 0) = some 1#1 ∧
    Memory.read (keystreaming ⟨3, 7#32, 6#32⟩ [] false).ks.buf 0 = 0#1 := by decide

theorem witness_TraceGrowsByGenksClocksOnly :
    ((answered (step (keystreaming ⟨3, 7#32, 6#32⟩ [] false))).map
      fun t => t.traced.length) = some 1 ∧
    ((answered (step (facing (cmd .nop) fresh))).map fun t => t.traced) = some [] := by decide

theorem witness_KeystreamStaysReadable :
    ((facing (cmd .shift) (loadedWith 3 7#32 6#32)).op ≠ .genks ∧
      (facing (cmd .shift) (loadedWith 3 7#32 6#32)).events.head? ≠ some .reset ∧
      (answered (step (facing (cmd .shift) (loadedWith 3 7#32 6#32)))).isSome = true ∧
      decode (encode .shift) ≠ .command .genks) ∧
    (Inv (keystreaming ⟨3, 7#32, 6#32⟩ [] false) ∧
      (keystreaming ⟨3, 7#32, 6#32⟩ [] false).op = .genks) :=
  ⟨by decide, inv_keystreaming, rfl⟩

theorem witness_StatusFields :
    (facing (wr .STATUS 1#32) fresh).events = wr .STATUS 1#32 :: [] := by decide

theorem witness_EngineFields : Inv (loadedWith 3 7#32 6#32) := inv_loaded.1

/-- KSADDR just below KSLEN, and at KSLEN. -/
theorem witness_KsdataReadsBelowKslen :
    ({ fresh with ks := { buf := [], len := 1#32 } } : State).conf.ksaddr.toNat <
      ({ fresh with ks := { buf := [], len := 1#32 } } : State).ks.len.toNat ∧
    fresh.ks.len.toNat ≤ fresh.conf.ksaddr.toNat ∧
    (facing (rd .KSDATA) fresh).events = rd .KSDATA :: [] := by decide

theorem witness_ParamIsConstant :
    fresh.mmax ≤ 30 ∧ (answered (step fresh)).isSome = true ∧
    (facing (wr .PARAM 1#32) fresh).events = wr .PARAM 1#32 :: [] := by decide

theorem witness_HostReadReturnsTheRegister :
    0xFC % 4 = 0 ∧ 0xFC ≤ 0xFC ∧
    (facing (.access { bits := 32, off := 0xFC, kind := .read }) fresh).events =
      .access { bits := 32, off := 0xFC, kind := .read } :: [] ∧ 0x48 ≤ 0x48 := by decide

theorem witness_HostWriteStoresConfiguration :
    (facing (wr .WIDTH 9#32) checkEnding).events = wr .WIDTH 9#32 :: [] ∧
    (facing (wr .SEED 9#32) fresh).events = wr .SEED 9#32 :: [] ∧
    (facing (wr .TAPS 9#32) fresh).events = wr .TAPS 9#32 :: [] ∧
    (facing (wr .KSADDR 9#32) fresh).events = wr .KSADDR 9#32 :: [] ∧
    (0x48 % 4 = 0 ∧ 0x48 ≤ 0xFC ∧
      (facing (.access { bits := 32, off := 0x48, kind := .write 1#32 }) fresh).events =
        .access { bits := 32, off := 0x48, kind := .write 1#32 } :: []) := by decide

/-- Each of R74's three kinds, and a defined access at the last offset. -/
theorem witness_UndefinedAccessesAreRefused :
    (refusal (step (facing (.access { bits := 8, off := 0x00, kind := .read }) fresh))).isSome = true ∧
    (refusal (step (facing (.access { bits := 32, off := 0x01, kind := .read }) fresh))).isSome = true ∧
    (refusal (step (facing (.access { bits := 32, off := 0x100, kind := .read }) fresh))).isSome = true ∧
    (answered (step (facing (.access { bits := 32, off := 0xFC, kind := .read }) fresh))).isSome = true := by
  decide

/-- LOAD reads all but KSADDR, CHECK not SEED, SEARCH only WIDTH. -/
theorem witness_CommandsReadOnlyTheirOperands :
    ∀ c : ConfigRegs, c = { width := 4#32, seed := 1#32, taps := 2#32, ksaddr := 3#32 } →
      c.width = (configured 4#32 1#32 2#32).conf.width ∧
      c.seed = (configured 4#32 1#32 2#32).conf.seed ∧
      c.taps = (configured 4#32 1#32 2#32).conf.taps ∧
      c.ksaddr ≠ (configured 4#32 1#32 2#32).conf.ksaddr ∧
      c.seed ≠ (configured 4#32 0#32 2#32).conf.seed ∧
      c.taps ≠ (configured 4#32 0#32 0#32).conf.taps := by
  intro c hc
  subst hc
  decide

theorem witness_ResetAbandonsEverything :
    (facing .reset checkEnding).events = .reset :: [] ∧ checkEnding.op = .check := by decide

theorem witness_AfterResetOnlyConfigurationHelps :
    fresh.op = .idle ∧ fresh.loaded = false ∧ fresh.conf.width = 0#32 ∧
    (answered (step (facing (cmd .load) (configured 4#32 1#32 2#32)))).map State.loaded =
      some true ∧ (facing (cmd .load) (configured 4#32 1#32 2#32)).loaded = false := by decide

theorem witness_IdleBlockKeepsItsState :
    fresh.events = [] ∧ (facing .busy fresh).events = .busy :: [] ∧ fresh.op = .idle ∧
    (facing .wait fresh).events = .wait :: [] ∧ (facing .wait checkEnding).op ≠ .idle := by decide

theorem witness_StepKeepsTheInvariant :
    Inv searchEnding ∧ (answered (step searchEnding)).isSome = true :=
  ⟨inv_searchEnding, by decide⟩

theorem witness_ResultsReadAsClearedWhileBusy :
    (Inv (testing .check ⟨3, 7#32, 6#32⟩ []) ∧
      (testing .check ⟨3, 7#32, 6#32⟩ []).op = .check) ∧
    (Inv searchEnding ∧ searchEnding.op = .search) ∧
    (Inv (keystreaming ⟨3, 7#32, 6#32⟩ [] false) ∧
      (keystreaming ⟨3, 7#32, 6#32⟩ [] false).op = .genks) :=
  ⟨⟨inv_checking, rfl⟩, ⟨inv_searchEnding, rfl⟩, ⟨inv_keystreaming, rfl⟩⟩

theorem witness_CheckAndGenksFinish :
    (Inv (testing .check ⟨3, 7#32, 6#32⟩ []) ∧
      (testing .check ⟨3, 7#32, 6#32⟩ []).op = .check) ∧
    (Inv (keystreaming ⟨3, 7#32, 6#32⟩ [] false) ∧
      (keystreaming ⟨3, 7#32, 6#32⟩ [] false).op = .genks) :=
  ⟨⟨inv_checking, rfl⟩, ⟨inv_keystreaming, rfl⟩⟩

theorem witness_SearchFinishes : Inv searchEnding ∧ searchEnding.op = .search :=
  ⟨inv_searchEnding, rfl⟩

/-- Two idle states with different unspecified contents. -/
theorem witness_UnspecifiedContentsAreUnobservable :
    Alike fresh { fresh with
      det := { fresh.det with seenValid := [(3, 1#1)], seenIdx := [(3, 7#32)] }
      ks := { fresh.ks with buf := [(0, 1#1)] } } :=
  ⟨rfl, fun h => absurd rfl h, fun h => absurd rfl h,
    fun k hk => absurd hk (Nat.not_lt_zero k), fun h => by cases h⟩

end Sys2Proof.Tests
end

section
/-!
The invariant of the block under every step (O56). The invariant is cut in two: what holds whatever OP is (`Resting`), and
what holds of the command that runs (`Running`). A command that completes only owes the first half.
-/
namespace Sys2Proof.Machine

/-! ## The two halves of the invariant -/

/-- The part of `DetectorOk` that holds whatever OP is (R26, R52). -/
structure Detector.Ok (mmax : Nat) (d : Detector) : Prop where
  validWf : Memory.wf d.seenValid = true
  idxWf : Memory.wf d.seenIdx = true
  cap : d.ncap.toNat < 2 ^ mmax
  within : d.cycle.toNat ≤ d.ncap.toNat
  count : d.seenCount = d.cycle
  first : d.repeated = false → d.repeatFirst = 0#32

/-- The part of `DetectorOk` that holds while a command runs at width `m` (R161 to R164). -/
structure Detector.RunsAt (m : Nat) (d : Detector) : Prop where
  cap : d.ncap.toNat = 2 ^ m - 1
  norepeat : d.repeated = false
  table : d.seenValid.length = d.cycle.toNat
  inside : ∀ a, Memory.read d.seenValid a = 1#1 → a < 2 ^ m

/-- The part of `SearchOk` that holds whatever OP is (R28, R188). -/
structure Harness.Ok (mmax : Nat) (h : Harness) : Prop where
  result : h.resultTaps.toNat < 2 ^ mmax
  oneOutcome : ¬ (h.verified = true ∧ h.fallback = true)

/-- `KeystreamOk`, said of the keystream alone (R30, R205). -/
structure Keystream.Ok (mmax : Nat) (k : Keystream) : Prop where
  bufWf : Memory.wf k.buf = true
  inside : ∀ a, Memory.read k.buf a = 1#1 → a < 2 ^ mmax - 1
  length : k.len.toNat ≤ 2 ^ mmax - 1

/-- The half of the invariant that does not speak of OP. -/
structure Resting (s : State) : Prop where
  low : 2 ≤ s.mmax
  high : s.mmax ≤ 30
  live : s.live.Ok s.mmax
  test : s.test.Ok s.mmax
  loaded : s.loaded = true → 2 ≤ s.live.m
  unloaded : s.loaded = false → s.live = Engine.reset ∧ s.lastOut = false ∧ s.lastFb = false
  det : s.det.Ok s.mmax
  search : s.search.Ok s.mmax
  ks : s.ks.Ok s.mmax

/-- The half of the invariant that speaks of the running command. -/
structure Running (s : State) : Prop where
  status : StatusOk s
  width : s.op = .check ∨ s.op = .search → 2 ≤ s.test.m
  det : s.op ≠ .idle → s.det.RunsAt (runWidth s)
  candidate : s.op = .search → 1 ≤ s.search.searchI.toNat ∧
    s.search.searchI.toNat ≤ 2 ^ (s.test.m - 1) - 1 ∧ s.test.t = cand s.test.m s.search.searchI

theorem inv_iff (s : State) : Inv s ↔ Resting s ∧ Running s := by
  constructor
  · rintro ⟨⟨low, high⟩, ⟨live, test, loaded, unloaded, width⟩, status,
      ⟨validWf, idxWf, cap, within, count, first, running, table, inside⟩,
      ⟨result, oneOutcome, candidate⟩, ⟨bufWf, bufInside, length⟩⟩
    exact ⟨⟨low, high, live, test, loaded, unloaded, ⟨validWf, idxWf, cap, within, count, first⟩,
        ⟨result, oneOutcome⟩, ⟨bufWf, bufInside, length⟩⟩,
      ⟨status, width, fun h => ⟨(running h).1, (running h).2, table h, inside h⟩, candidate⟩⟩
  · rintro ⟨⟨low, high, live, test, loaded, unloaded, det, search, ks⟩,
      ⟨status, width, runs, candidate⟩⟩
    exact ⟨⟨low, high⟩, ⟨live, test, loaded, unloaded, width⟩, status,
      ⟨det.validWf, det.idxWf, det.cap, det.within, det.count, det.first,
        fun h => ⟨(runs h).cap, (runs h).norepeat⟩, fun h => (runs h).table,
        fun h => (runs h).inside⟩,
      ⟨search.result, search.oneOutcome, candidate⟩, ⟨ks.bufWf, ks.inside, ks.length⟩⟩

theorem Inv.resting {s : State} (h : Inv s) : Resting s := ((inv_iff s).1 h).1

theorem Inv.running {s : State} (h : Inv s) : Running s := ((inv_iff s).1 h).2

theorem runWidth_genks {s : State} (hop : s.op = .genks) : runWidth s = s.live.m := by
  rw [runWidth, if_pos hop]

theorem runWidth_test {s : State} (hop : s.op ≠ .genks) : runWidth s = s.test.m := by
  rw [runWidth, if_neg hop]

/-- While the block is idle there is no running command to speak of. -/
theorem Resting.inv_of_idle {s : State} (h : Resting s) (hop : s.op = .idle) : Inv s := by
  refine (inv_iff s).2 ⟨h, ⟨?_, ?_, ?_, ?_⟩, ?_, ?_, ?_⟩ <;> simp [hop]

/-! ## What the two halves do not read -/

/-- The first half reads neither the command status nor the host's side. -/
theorem Resting.frame {s : State} (h : Resting s) (op : Op) (doneBit : Bool) (err : ErrCode)
    (rejected primitive : Bool) (conf : ConfigRegs) (traced : List TraceRec)
    (events : List Event) (reads : List (Nat × Word)) :
    Resting { s with op, doneBit, err, rejected, primitive, conf, traced, events, reads } :=
  { h with }

/-- The invariant reads nothing of the host's side, nor REJECTED. -/
theorem Inv.frame {s : State} (h : Inv s) (rejected : Bool) (conf : ConfigRegs)
    (traced : List TraceRec) (events : List Event) (reads : List (Nat × Word)) :
    Inv { s with rejected, conf, traced, events, reads } :=
  have hr := h.running
  have hs := hr.status
  (inv_iff _).2 ⟨h.resting.frame _ _ _ _ _ _ _ _ _,
    { hs with }, hr.width, hr.det, hr.candidate⟩

theorem Resting.accept {s : State} (h : Resting s) : Resting (accept s) :=
  h.frame _ _ _ _ _ _ _ _ _

/-- Completion keeps the invariant, whatever the running command had reached (R124). -/
theorem Resting.inv_complete {s : State} (h : Resting s) (code : ErrCode) :
    Inv (complete code s) :=
  Resting.inv_of_idle (h.frame _ _ _ _ _ _ _ _ _) rfl

/-! ## The detector (R161, R162) -/

theorem two_pow_sub_one_lt {m n : Nat} (h : m ≤ n) : 2 ^ m - 1 < 2 ^ n := by
  have hle : 2 ^ m ≤ 2 ^ n := two_pow_le_of_le h
  have hpos : 0 < 2 ^ m := Nat.two_pow_pos m
  omega

theorem Detector.Ok.start {mmax m : Nat} {d : Detector} (h : d.Ok mmax) (hm : m ≤ mmax)
    (hmax : mmax ≤ 30) : (detStart m d).Ok mmax where
  validWf := rfl
  idxWf := h.idxWf
  cap := by
    change (mask m).toNat < 2 ^ mmax
    rw [toNat_mask m (by omega)]
    exact two_pow_sub_one_lt hm
  within := Nat.zero_le _
  count := rfl
  first := fun _ => rfl

theorem Detector.runsAt_detStart (d : Detector) {m : Nat} (hm : m ≤ 30) :
    (detStart m d).RunsAt m where
  cap := toNat_mask m (by omega)
  norepeat := rfl
  table := rfl
  inside := fun a ha => absurd ha (by simp [detStart])

theorem Detector.Ok.stopOn {mmax : Nat} {d : Detector} (h : d.Ok mmax) (r : Word) :
    (d.stopOn r).Ok mmax :=
  { h with first := nofun }

/-- Below the cap CYCLE counts up without wrapping (R8). -/
theorem Detector.Ok.cycle_succ {mmax : Nat} {d : Detector} (h : d.Ok mmax) (hmax : mmax ≤ 30) :
    (d.cycle + 1#32).toNat = d.cycle.toNat + 1 := by
  have hcap := h.cap
  have hwithin := h.within
  have hpow : 2 ^ mmax ≤ 2 ^ 30 := two_pow_le_of_le hmax
  exact toNat_succ _ (by omega)

theorem Detector.Ok.cycle_lt {mmax : Nat} {d : Detector} (h : d.Ok mmax)
    (hne : d.cycle ≠ d.ncap) : d.cycle.toNat < d.ncap.toNat :=
  Nat.lt_of_le_of_ne h.within fun e => hne (BitVec.eq_of_toNat_eq e)

theorem Detector.Ok.record {mmax : Nat} {d : Detector} (h : d.Ok mmax) (hmax : mmax ≤ 30)
    (hne : d.cycle ≠ d.ncap) (r : Word) : (d.record r).Ok mmax where
  validWf := Memory.write_wf d.seenValid r.toNat 1#1 h.validWf
  idxWf := Memory.write_wf d.seenIdx r.toNat d.cycle h.idxWf
  cap := h.cap
  within := by
    change (d.cycle + 1#32).toNat ≤ d.ncap.toNat
    rw [h.cycle_succ hmax]
    exact h.cycle_lt hne
  count := congrArg (· + 1#32) h.count
  first := h.first

/-- A clock from a new state of width `m` enters one more index below `2^m`. -/
theorem Detector.RunsAt.record {mmax m : Nat} {d : Detector} (h : d.RunsAt m) (hd : d.Ok mmax)
    (hmax : mmax ≤ 30) {r : Word} (hr : r.toNat < 2 ^ m) (hnew : d.hasSeen r = false) :
    (d.record r).RunsAt m where
  cap := h.cap
  norepeat := h.norepeat
  table := by
    have hblank := (hasSeen_eq_false_iff d r).1 hnew
    change (Memory.write d.seenValid r.toNat 1#1).length = (d.cycle + 1#32).toNat
    rw [Memory.length_write_of_blank _ _ _ hd.validWf (by decide) hblank, h.table,
      hd.cycle_succ hmax]
  inside := fun a ha => by
    rw [read_record_seenValid] at ha
    split at ha
    · rename_i heq
      exact heq ▸ hr
    · exact h.inside a ha

/-! ## The commands (R120 to R126) -/

theorem inv_loadRule {s : State} (h : Resting s) : Inv (loadRule s) := by
  rw [loadRule]
  split
  · rename_i hvalid
    simp only [loadOperandsValid, Bool.and_eq_true, validWidth_iff] at hvalid
    obtain ⟨⟨⟨hlow, hhigh⟩, _⟩, _⟩ := hvalid
    refine Resting.inv_complete ?_ .ok
    exact { h with
      live := ⟨hhigh, lowBits_lt _ _, lowBits_lt _ _⟩
      loaded := fun _ => hlow
      unloaded := nofun }
  · exact h.inv_complete _

/-- A clock of a loaded live engine, whatever is latched (R23, R142). -/
theorem Resting.clockLive {s : State} (h : Resting s) (hl : s.loaded = true) (lastOut lastFb : Bool) :
    Resting { s with live := shiftStep s.live, lastOut, lastFb } :=
  { h with
    live := shiftStep_ok _ _ h.live
    unloaded := fun hno => absurd hno (by simp [hl]) }

theorem inv_shiftRule {s : State} (h : Resting s) : Inv (shiftRule s) := by
  rw [shiftRule]
  split
  · rename_i hl
    exact (h.clockLive hl _ _).inv_complete _
  · exact h.inv_complete _

theorem inv_checkRule {s : State} (h : Resting s) (hdone : s.doneBit = false) (herr : s.err = .ok) :
    Inv (checkRule s) := by
  rw [checkRule]
  split
  · rename_i hvalid
    simp only [checkOperandsValid, Bool.and_eq_true, validWidth_iff] at hvalid
    obtain ⟨⟨hlow, hhigh⟩, _⟩ := hvalid
    have hmax := h.high
    refine (inv_iff _).2 ⟨{ h with test := ⟨hhigh, mask_lt _, lowBits_lt _ _⟩
                                   det := h.det.start hhigh hmax }, ?_⟩
    exact { status := ⟨fun _ => ⟨hdone, herr⟩, fun _ => rfl, nofun, nofun⟩
            width := fun _ => hlow
            det := fun _ => s.det.runsAt_detStart (Nat.le_trans hhigh hmax)
            candidate := nofun }
  · exact h.inv_complete _

/-- Setting up a legal candidate at a legal width starts its run (R185). -/
theorem inv_setupCandidate {s : State} (h : Resting s) (hs : StatusOk s) (hop : s.op = .search)
    {w : Nat} (hlow : 2 ≤ w) (hhigh : w ≤ s.mmax) {i : Word} (hi : 1 ≤ i.toNat)
    (hlast : i.toNat ≤ 2 ^ (w - 1) - 1) :
    Inv (setupCandidate i { s with test := { s.test with m := w } }) := by
  have hmax := h.high
  have hpos : 0 < 2 ^ (w - 1) := Nat.two_pow_pos _
  have hcand : (cand w i).toNat < 2 ^ w := cand_lt w i (by omega) (by omega) (by omega)
  refine (inv_iff _).2 ⟨{ h with test := ⟨hhigh, mask_lt _, hcand⟩
                                 det := h.det.start hhigh hmax
                                 search := ⟨h.search.result, h.search.oneOutcome⟩ }, ?_⟩
  exact { status := { hs with }
          width := fun _ => hlow
          det := fun _ => by
            rw [runWidth_test (by simp [setupCandidate, hop])]
            exact s.det.runsAt_detStart (Nat.le_trans hhigh hmax)
          candidate := fun _ => ⟨hi, hlast, rfl⟩ }

/-- The state that acceptance of SEARCH leaves before it sets up candidate 1: running, its results cleared (R183). -/
def searchCleared (s : State) : State :=
  { s with
    op := .search
    primitive := false
    search := { s.search with resultTaps := 0#32, verified := false, fallback := false } }

theorem searchRule_of_valid {s : State} (h : validWidth s = true) :
    searchRule s = setupCandidate 1#32
      { searchCleared s with test := { s.test with m := widthOperand s } } := by
  rw [searchRule, if_pos h]
  rfl

theorem inv_searchRule {s : State} (h : Resting s) (hdone : s.doneBit = false) (herr : s.err = .ok) :
    Inv (searchRule s) := by
  cases hvalid : validWidth s with
  | false =>
    rw [searchRule, if_neg (by simp [hvalid])]
    exact h.inv_complete _
  | true =>
    rw [searchRule_of_valid hvalid]
    obtain ⟨hlow, hhigh⟩ := (validWidth_iff s).1 hvalid
    have hrest : Resting (searchCleared s) :=
      { h with search := ⟨Nat.two_pow_pos _, nofun⟩ }
    have hstatus : StatusOk (searchCleared s) :=
      ⟨fun _ => ⟨hdone, herr⟩, nofun, fun _ => ⟨rfl, rfl, rfl, rfl⟩, nofun⟩
    have hone : 1 ≤ 2 ^ (s.conf.width.toNat - 1) - 1 := by
      have : 2 ^ 1 ≤ 2 ^ (s.conf.width.toNat - 1) := two_pow_le_of_le (by omega)
      omega
    exact inv_setupCandidate hrest hstatus rfl hlow hhigh (Nat.le_refl 1) hone

theorem inv_genksRule {s : State} (h : Resting s) (hdone : s.doneBit = false) (herr : s.err = .ok) :
    Inv (genksRule s) := by
  rw [genksRule]
  split
  · rename_i hl
    have hmax := h.high
    have hwidth := h.live.width
    refine (inv_iff _).2 ⟨{ h with det := h.det.start hwidth hmax
                                   ks := ⟨h.ks.bufWf, h.ks.inside, Nat.zero_le _⟩ }, ?_⟩
    exact { status := ⟨fun _ => ⟨hdone, herr⟩, nofun, nofun, fun _ => ⟨hl, rfl⟩⟩
            width := nofun
            det := fun _ => s.det.runsAt_detStart (Nat.le_trans hwidth hmax)
            candidate := nofun }
  · exact h.inv_complete _

/-- Every command's rule keeps the invariant on the status that acceptance cleared (R121). -/
theorem inv_ruleOf_accept {s : State} (h : Resting s) (i : Instr) : Inv (ruleOf i (accept s)) := by
  cases i with
  | nop => exact h.accept.inv_complete .ok
  | load => exact inv_loadRule h.accept
  | shift => exact inv_shiftRule h.accept
  | check => exact inv_checkRule h.accept rfl rfl
  | search => exact inv_searchRule h.accept rfl rfl
  | genks => exact inv_genksRule h.accept rfl rfl
  | cancel => exact h.accept.inv_complete .ok

theorem inv_exec {s t : State} (h : Inv s) (i : Instr) (e : exec i s = .next t) : Inv t := by
  by_cases hop : s.op = .idle
  · rw [exec_idle i s hop] at e
    cases e
    exact inv_ruleOf_accept h.resting i
  · by_cases hi : i = .cancel
    · subst hi
      rw [exec_cancel_busy s hop] at e
      cases e
      exact h.resting.accept.inv_complete .cancelled
    · rw [exec_busy i s hop hi] at e
      cases e
      exact h.frame _ _ _ _ _

theorem inv_illegalCommand {s t : State} (h : Inv s) (e : illegalCommand s = .next t) : Inv t := by
  by_cases hop : s.op = .idle
  · rw [illegalCommand_idle s hop] at e
    cases e
    exact h.resting.accept.inv_complete .illegalCommand
  · rw [illegalCommand_busy s hop] at e
    cases e
    exact h.frame _ _ _ _ _

/-! ## The busy steps (R127) -/

theorem Resting.withDet {s : State} (h : Resting s) {d : Detector} (hd : d.Ok s.mmax) :
    Resting { s with det := d } :=
  { h with det := hd }

/-- One clock of the test engine, for CHECK and SEARCH alike (R166, R184). -/
theorem inv_clockedState_test {s : State} (h : Inv s) (hop : s.op = .check ∨ s.op = .search)
    (hne : s.det.cycle ≠ s.det.ncap) (hnew : s.det.hasSeen s.test.r = false) :
    Inv (clockedState .test s) := by
  have hrest := h.resting
  obtain ⟨hstatus, hwidth, hruns, hcand⟩ := h.running
  have hngenks : s.op ≠ .genks := by rcases hop with e | e <;> simp [e]
  have hbefore : runWidth s = s.test.m := runWidth_test hngenks
  have hafter : runWidth (clockedState .test s) = s.test.m := runWidth_test hngenks
  refine (inv_iff _).2 ⟨{ hrest with test := shiftStep_ok _ _ hrest.test
                                     det := hrest.det.record hrest.high hne _ }, ?_⟩
  exact { status := { hstatus with }
          width := hwidth
          det := fun hbusy => by
            have hd : s.det.RunsAt s.test.m := hbefore ▸ hruns hbusy
            rw [hafter]
            exact hd.record hrest.det hrest.high hrest.test.state hnew
          candidate := hcand }

theorem inv_checkBusyStep {s : State} (h : Inv s) (hop : s.op = .check) :
    Inv (checkBusyStep s) := by
  have hfinish : ∀ t, Resting t → Inv (finishCheck t) := fun t ht =>
    Resting.inv_complete (ht.frame _ _ _ _ _ _ _ _ _) .ok
  rcases checkBusyStep_cases s with ⟨hne, hnew, e⟩ | ⟨_, e⟩ | ⟨_, _, e⟩ <;> rw [e]
  · exact inv_clockedState_test h (.inl hop) hne hnew
  · exact hfinish _ h.resting
  · exact hfinish _ (h.resting.withDet (h.resting.det.stopOn _))

/-- After a candidate that is not the last one, the next index is legal too (R181). -/
theorem succ_candidate_le {m : Nat} {i : Word} (hm : m ≤ 30) (hi : i.toNat ≤ 2 ^ (m - 1) - 1)
    (hne : i ≠ lastCandidate m) :
    (i + 1#32).toNat = i.toNat + 1 ∧ i.toNat + 1 ≤ 2 ^ (m - 1) - 1 := by
  have hlast := toNat_lastCandidate m (by omega)
  have hne' : i.toNat ≠ (lastCandidate m).toNat := fun e => hne (BitVec.eq_of_toNat_eq e)
  have hpow : 2 ^ (m - 1) ≤ 2 ^ 30 := two_pow_le_of_le (by omega)
  exact ⟨toNat_succ _ (by omega), by omega⟩

/-- The end of one candidate's run, with the detector as the run left it (R184, R188). -/
theorem inv_endCandidate {s : State} (h : Inv s) (hop : s.op = .search) {d : Detector}
    (hd : d.Ok s.mmax) : Inv (endCandidate { s with det := d }) := by
  have hrest := h.resting.withDet hd
  have hstatus := h.running.status
  have hlow := h.running.width (.inr hop)
  obtain ⟨hwidth, _, htaps⟩ := h.resting.test
  obtain ⟨hi, hlast, _⟩ := h.running.candidate hop
  obtain ⟨_, _, hverified, hfallback⟩ := hstatus.search hop
  have hm : s.test.m ≤ 30 := Nat.le_trans hwidth h.resting.high
  have hpow : 2 ^ s.test.m ≤ 2 ^ s.mmax := two_pow_le_of_le hwidth
  rcases endCandidate_cases { s with det := d } with ⟨_, e⟩ | ⟨_, _, e⟩ | ⟨_, hne, e⟩ <;> rw [e]
  · refine Resting.inv_complete ?_ .ok
    exact { hrest with search := ⟨Nat.lt_of_lt_of_le htaps hpow, by simp [hfallback]⟩ }
  · refine Resting.inv_complete ?_ .ok
    have hfb := fallbackTaps_lt s.test.m hlow (by omega)
    exact { hrest with search := ⟨Nat.lt_of_lt_of_le hfb hpow, by simp [hverified]⟩ }
  · obtain ⟨hsucc, hnext⟩ := succ_candidate_le hm hlast hne
    exact inv_setupCandidate hrest { hstatus with }
      hop hlow hwidth (hsucc ▸ Nat.le_add_left 1 _) (hsucc ▸ hnext)

theorem inv_searchBusyStep {s : State} (h : Inv s) (hop : s.op = .search) :
    Inv (searchBusyStep s) := by
  rcases searchBusyStep_cases s with ⟨hne, hnew, e⟩ | ⟨_, e⟩ | ⟨_, _, e⟩ <;> rw [e]
  · exact inv_clockedState_test h (.inr hop) hne hnew
  · exact inv_endCandidate h hop h.resting.det
  · exact inv_endCandidate h hop (h.resting.det.stopOn _)

/-- The end of a GENKS: KSLEN takes CYCLE or 0, both within the buffer (R204, R205). -/
theorem inv_finishGenks {s : State} (h : Resting s) : Inv (finishGenks s) := by
  have hlen : s.det.cycle.toNat ≤ 2 ^ s.mmax - 1 := by
    have hwithin := h.det.within
    have hcap := h.det.cap
    omega
  rw [finishGenks]
  split
  · refine Resting.inv_complete ?_ .ok
    exact { h with ks := ⟨h.ks.bufWf, h.ks.inside, hlen⟩ }
  · refine Resting.inv_complete ?_ .degenerateKeystream
    exact { h with ks := ⟨h.ks.bufWf, h.ks.inside, Nat.zero_le _⟩ }

/-- Storing a bit below the last index keeps the keystream inside its buffer (R205). -/
theorem Keystream.Ok.store {mmax : Nat} {k : Keystream} (h : k.Ok mmax) {n : Nat}
    (hn : n < 2 ^ mmax - 1) (b : BitVec 1) :
    Keystream.Ok mmax { k with buf := Memory.write k.buf n b } where
  bufWf := Memory.write_wf _ _ _ h.bufWf
  inside := fun a ha => by
    simp only [Memory.read_write] at ha
    split at ha
    · rename_i heq
      exact heq ▸ hn
    · exact h.inside a ha
  length := h.length

/-- One clock of GENKS (R203). -/
theorem inv_storeClock {s : State} (h : Inv s) (hop : s.op = .genks)
    (hne : s.det.cycle ≠ s.det.ncap) (hnew : s.det.hasSeen s.live.r = false)
    (st : Word) (fb out : Bool) :
    Inv (storeClock s.det.cycle st fb out (clockedState .live s)) := by
  have hrest := h.resting
  obtain ⟨hstatus, _, hruns, _⟩ := h.running
  obtain ⟨hl, _⟩ := hstatus.genks hop
  have hindex : s.det.cycle.toNat < 2 ^ s.mmax - 1 := by
    have hcap := hrest.det.cap
    have hlt := hrest.det.cycle_lt hne
    omega
  have hdet := hrest.det.record hrest.high hne s.live.r
  have hbefore : s.det.RunsAt s.live.m := runWidth_genks hop ▸ hruns (by simp [hop])
  have hruns' := hbefore.record hrest.det hrest.high hrest.live.state hnew
  refine (inv_iff _).2 ⟨{ hrest.clockLive hl out fb with det := { hdet with }
                                                         ks := hrest.ks.store hindex _ }, ?_⟩
  exact { status := { hstatus with }
          width := fun hc => absurd hc (by simp [storeClock, clockedState, hop])
          det := fun _ => by
            rw [runWidth_genks (by simp [storeClock, clockedState, hop])]
            exact { hruns' with }
          candidate := fun hc => absurd hc (by simp [storeClock, clockedState, hop]) }

theorem inv_genksBusyStep {s : State} (h : Inv s) (hop : s.op = .genks) :
    Inv (genksBusyStep s) := by
  rcases genksBusyStep_cases s with ⟨hne, hnew, e⟩ | ⟨_, e⟩ | ⟨_, _, e⟩ <;> rw [e]
  · exact inv_storeClock h hop hne hnew _ _ _
  · exact inv_finishGenks h.resting
  · exact inv_finishGenks (h.resting.withDet (h.resting.det.stopOn _))

theorem inv_busyStep {s : State} (h : Inv s) : Inv (busyStep s) := by
  rcases op_cases s with hop | hop | hop | hop
  · rwa [busyStep_idle s hop]
  · rw [busyStep_check s hop]
    exact inv_checkBusyStep h hop
  · rw [busyStep_search s hop]
    exact inv_searchBusyStep h hop
  · rw [busyStep_genks s hop]
    exact inv_genksBusyStep h hop

/-! ## Reset and the host's events (R79, R400) -/

/-- Every legal MMAX gives a reset state that meets the invariant (R60). -/
theorem inv_resetAt {mmax : Nat} (hlow : 2 ≤ mmax) (hhigh : mmax ≤ 30) :
    Inv (State.resetAt mmax) := by
  have hengine : Engine.reset.Ok mmax := ⟨Nat.zero_le _, Nat.one_pos, Nat.one_pos⟩
  have hrest : Resting (State.resetAt mmax) :=
    { low := hlow
      high := hhigh
      live := hengine
      test := hengine
      loaded := nofun
      unloaded := fun _ => ⟨rfl, rfl, rfl⟩
      det := ⟨rfl, rfl, Nat.two_pow_pos _, Nat.zero_le _, rfl, fun _ => rfl⟩
      search := ⟨Nat.two_pow_pos _, nofun⟩
      ks := ⟨rfl, nofun, Nat.zero_le _⟩ }
  exact hrest.inv_of_idle rfl

theorem inv_resetEvent {s : State} (h : Inv s) : Inv (resetEvent s) :=
  (inv_resetAt h.param.low h.param.high).frame _ _ _ _ _

theorem inv_popEvent {s : State} (h : Inv s) : Inv (popEvent s) :=
  h.frame _ _ _ _ _

theorem inv_waitStep {s : State} (h : Inv s) : Inv (waitStep s) := by
  rw [waitStep]
  split
  · exact inv_busyStep h
  · exact inv_popEvent h

theorem inv_hostWrite {s : State} (h : Inv s) (off : Nat) (v : Word) : Inv (hostWrite s off v) := by
  rw [hostWrite_eq]
  exact h.frame _ _ _ _ _

/-- Settles O56: each event of the total order (R79) takes a state of the invariant to one, by the two halves of the
invariant. -/
theorem stepKeepsTheInvariant : Obligations.StepKeepsTheInvariant := by
  intro s t h hstep
  have hpop : Inv (popEvent s) := inv_popEvent h
  rcases step_cases s t hstep with ⟨_, rfl⟩ | ⟨_, _, rfl⟩ | ⟨_, _, rfl⟩ | ⟨_, _, rfl⟩ |
    ⟨_, _, _, rfl⟩ | ⟨_, _, _, _, _, rfl⟩ | ⟨_, i, _, _, _, e⟩ | ⟨_, _, _, _, _, e⟩
  · exact inv_busyStep h
  · exact inv_busyStep hpop
  · exact inv_waitStep h
  · exact inv_resetEvent hpop
  · exact hpop.frame _ _ _ _ _
  · exact inv_hostWrite hpop _ _
  · exact inv_exec hpop i e
  · exact inv_illegalCommand hpop e

end Sys2Proof.Machine
end

section
/-!
Unspecified contents (O60, R61). Every operation of a step takes alike states to alike states: most of them neither read nor
write the three stores, and the four that do (a detector start, a repeat, a clock, the end of a GENKS) have a lemma each.
-/
namespace Sys2Proof.Machine

/-! ## Alike states, by their contents -/

/-- A state with other contents in the three stores of R61. -/
def State.withContents (s : State) (valid : Memory 1) (idx : Memory 32) (buf : Memory 1) : State :=
  { s with det := { s.det with seenValid := valid, seenIdx := idx }, ks := { s.ks with buf := buf } }

namespace Alike

variable {s t : State}

theorem exists_contents (h : Alike s t) : ∃ v i b, t = s.withContents v i b :=
  ⟨_, _, _, h.rest⟩

theorem refl (s : State) : Alike s s :=
  ⟨rfl, fun _ _ => rfl, fun _ _ _ => rfl, fun _ _ => rfl, fun _ _ _ => rfl⟩

theorem op_eq (h : Alike s t) : t.op = s.op := by rw [h.rest]

theorem events_eq (h : Alike s t) : t.events = s.events := by rw [h.rest]

theorem live_eq (h : Alike s t) : t.live = s.live := by rw [h.rest]

theorem test_eq (h : Alike s t) : t.test = s.test := by rw [h.rest]

theorem loaded_eq (h : Alike s t) : t.loaded = s.loaded := by rw [h.rest]

theorem search_eq (h : Alike s t) : t.search = s.search := by rw [h.rest]

theorem cycle_eq (h : Alike s t) : t.det.cycle = s.det.cycle := by rw [h.rest]

theorem ncap_eq (h : Alike s t) : t.det.ncap = s.det.ncap := by rw [h.rest]

theorem busy_eq (h : Alike s t) : busy t = busy s := by rw [busy, busy, h.op_eq]

/-- A table that is in use answers alike (R162). -/
theorem hasSeen_eq (h : Alike s t) (hbusy : s.op ≠ .idle) (r : Word) :
    t.det.hasSeen r = s.det.hasSeen r := by
  rw [Detector.hasSeen, Detector.hasSeen, h.valid hbusy]

/-! ## What no register shows (R40, R56) -/

theorem keystreamData_eq (h : Alike s t) : keystreamData t = keystreamData s := by
  have hread := h.readable s.conf.ksaddr.toNat
  obtain ⟨_, _, _, rfl⟩ := h.exists_contents
  change (if s.conf.ksaddr < s.ks.len then _ else _) = _
  rw [keystreamData]
  split
  · rename_i hlt
    exact congrArg (BitVec.setWidth 32) (hread (BitVec.lt_def.1 hlt))
  · rfl

/-- KSDATA is the only register that shows a store. -/
theorem hostRead_eq (h : Alike s t) (off : Nat) : hostRead t off = hostRead s off := by
  have hdata := h.keystreamData_eq
  obtain ⟨_, _, _, rfl⟩ := h.exists_contents
  rw [hostRead.eq_def, hostRead.eq_def]
  split
  case h_14 => exact hdata
  all_goals rfl

/-! ## Changes of a state that keep the likeness -/

/-- The likeness reads nothing but OP, the detector and the keystream. -/
theorem frame (h : Alike s t) {live test : Engine} {loaded lastOut lastFb doneBit : Bool}
    {err : ErrCode} {rejected primitive : Bool} {search : Harness} {conf : ConfigRegs}
    {traced : List TraceRec} {events : List Event} {reads : List (Nat × Word)} :
    Alike
      { s with live, test, loaded, lastOut, lastFb, doneBit, err, rejected, primitive, search,
               conf, traced, events, reads }
      { t with live, test, loaded, lastOut, lastFb, doneBit, err, rejected, primitive, search,
               conf, traced, events, reads } where
  rest := by rw [h.rest]
  valid := h.valid
  first := h.first
  readable := h.readable
  written := h.written

/-- Completion leaves only the readable bits to agree on (R124). -/
theorem complete (h : Alike s t) (code : ErrCode) :
    Alike (complete code s) (complete code t) where
  rest := by rw [h.rest]; rfl
  valid := fun hbusy => absurd rfl hbusy
  first := fun hbusy => absurd rfl hbusy
  readable := h.readable
  written := nofun

/-- A detector start empties the table and CYCLE (R161), so whatever OP becomes, nothing of the old contents counts. -/
theorem start (h : Alike s t) (m : Nat) (op : Op) :
    Alike { s with det := detStart m s.det, op := op }
      { t with det := detStart m t.det, op := op } where
  rest := by rw [h.rest]; rfl
  valid := fun _ _ => rfl
  first := fun _ a ha => absurd ha (by simp [detStart])
  readable := h.readable
  written := fun _ k hk => absurd hk (Nat.not_lt_zero k)

/-- KSLEN may take any value below which the bits agree (R204). -/
theorem setLen (h : Alike s t) (len : Word)
    (hlen : ∀ k, k < len.toNat → Memory.read t.ks.buf k = Memory.read s.ks.buf k) :
    Alike { s with ks := { s.ks with len := len } } { t with ks := { t.ks with len := len } } where
  rest := by rw [h.rest]
  valid := h.valid
  first := h.first
  readable := hlen
  written := h.written

/-- The same bit written at the same index of both buffers (R205). -/
theorem storeBit (h : Alike s t) (n : Nat) (b : BitVec 1) :
    Alike { s with ks := { s.ks with buf := Memory.write s.ks.buf n b } }
      { t with ks := { t.ks with buf := Memory.write t.ks.buf n b } } where
  rest := by rw [h.rest]
  valid := h.valid
  first := h.first
  readable := fun k hk => by rw [Memory.read_write, Memory.read_write, h.readable k hk]
  written := fun hop k hk => by rw [Memory.read_write, Memory.read_write, h.written hop k hk]

theorem setOnes (h : Alike s t) (ones : Bool) :
    Alike { s with det := { s.det with ones := ones } }
      { t with det := { t.det with ones := ones } } where
  rest := by rw [h.rest]
  valid := h.valid
  first := h.first
  readable := h.readable
  written := h.written

/-- A clock enters the same state under the same index in both tables (R162). While GENKS runs, the bit at CYCLE has to
agree, since CYCLE passes it. -/
theorem record (h : Alike s t) (r : Word)
    (hbit : s.op = .genks →
      Memory.read t.ks.buf s.det.cycle.toNat = Memory.read s.ks.buf s.det.cycle.toNat) :
    Alike { s with det := s.det.record r } { t with det := t.det.record r } where
  rest := by rw [h.rest]; rfl
  valid := fun hbusy a => by
    rw [read_record_seenValid, read_record_seenValid, h.valid hbusy]
  first := fun hbusy a ha => by
    rw [read_record_seenValid] at ha
    rw [read_record_seenIdx, read_record_seenIdx, h.cycle_eq]
    split
    · rfl
    · rename_i hne
      rw [if_neg hne] at ha
      exact h.first hbusy a ha
  readable := h.readable
  written := fun hop k hk => by
    change k < (s.det.cycle + 1#32).toNat at hk
    have hle : (s.det.cycle + 1#32).toNat ≤ s.det.cycle.toNat + 1 := Nat.mod_le _ _
    rcases Nat.lt_or_eq_of_le (Nat.le_of_lt_succ (Nat.lt_of_lt_of_le hk hle)) with hlt | rfl
    · exact h.written hop k hlt
    · exact hbit hop

/-- A repeat is of a valid entry, whose first index both tables agree on (R162). -/
theorem stopOn (h : Alike s t) (hbusy : s.op ≠ .idle) (r : Word) (hseen : s.det.hasSeen r = true) :
    Alike { s with det := s.det.stopOn r } { t with det := t.det.stopOn r } where
  rest := by
    rw [Detector.stopOn, h.first hbusy _ ((hasSeen_iff _ _).1 hseen), h.rest]
    rfl
  valid := h.valid
  first := h.first
  readable := h.readable
  written := h.written

/-! ## The commands (R120 to R126) -/

theorem accept (h : Alike s t) : Alike (accept s) (accept t) := by
  obtain ⟨_, _, _, rfl⟩ := h.exists_contents
  exact h.frame

theorem reject (h : Alike s t) : Alike (reject s) (reject t) := by
  obtain ⟨_, _, _, rfl⟩ := h.exists_contents
  exact h.frame

theorem loadRule (h : Alike s t) : Alike (loadRule s) (loadRule t) := by
  have hvalid : loadOperandsValid t = loadOperandsValid s := by rw [h.rest]; rfl
  rw [Machine.loadRule, Machine.loadRule, hvalid]
  obtain ⟨_, _, _, rfl⟩ := h.exists_contents
  split
  · exact h.frame.complete .ok
  · exact h.complete .invalidConfig

theorem shiftRule (h : Alike s t) : Alike (shiftRule s) (shiftRule t) := by
  rw [Machine.shiftRule, Machine.shiftRule, h.loaded_eq]
  obtain ⟨_, _, _, rfl⟩ := h.exists_contents
  split
  · exact h.frame.complete .ok
  · exact h.complete .notLoaded

theorem checkRule (h : Alike s t) : Alike (checkRule s) (checkRule t) := by
  have hvalid : checkOperandsValid t = checkOperandsValid s := by rw [h.rest]; rfl
  rw [Machine.checkRule, Machine.checkRule, hvalid]
  obtain ⟨_, _, _, rfl⟩ := h.exists_contents
  split
  · exact (h.start _ .check).frame
  · exact h.complete .invalidConfig

theorem setupCandidate (h : Alike s t) (i : Word) :
    Alike (setupCandidate i s) (setupCandidate i t) := by
  obtain ⟨_, _, _, rfl⟩ := h.exists_contents
  exact (h.start s.test.m s.op).frame

theorem searchRule (h : Alike s t) : Alike (searchRule s) (searchRule t) := by
  have hvalid : validWidth t = validWidth s := by rw [h.rest]; rfl
  rw [Machine.searchRule, Machine.searchRule, hvalid]
  obtain ⟨_, _, _, rfl⟩ := h.exists_contents
  split
  · exact (h.start _ .search).frame
  · exact h.complete .invalidConfig

theorem genksRule (h : Alike s t) : Alike (genksRule s) (genksRule t) := by
  rw [Machine.genksRule, Machine.genksRule, h.loaded_eq]
  obtain ⟨_, _, _, rfl⟩ := h.exists_contents
  split
  · exact (h.start s.live.m .genks).setLen 0#32 nofun
  · exact h.complete .notLoaded

theorem ruleOf (h : Alike s t) (i : Instr) : Alike (ruleOf i s) (ruleOf i t) := by
  cases i with
  | nop => exact h.complete .ok
  | load => exact h.loadRule
  | shift => exact h.shiftRule
  | check => exact h.checkRule
  | search => exact h.searchRule
  | genks => exact h.genksRule
  | cancel => exact h.complete .ok

theorem answers (h : Alike s t) : AnswersAlike (.next s) (.next t) :=
  .inl ⟨s, t, rfl, rfl, h⟩

theorem exec (h : Alike s t) (i : Instr) : AnswersAlike (exec i s) (exec i t) := by
  by_cases hop : s.op = .idle
  · rw [exec_idle i s hop, exec_idle i t (h.op_eq.trans hop)]
    exact (h.accept.ruleOf i).answers
  · have hop' : t.op ≠ .idle := h.op_eq ▸ hop
    by_cases hi : i = .cancel
    · subst hi
      rw [exec_cancel_busy s hop, exec_cancel_busy t hop']
      exact (h.accept.complete .cancelled).answers
    · rw [exec_busy i s hop hi, exec_busy i t hop' hi]
      exact h.reject.answers

theorem illegalCommand (h : Alike s t) : AnswersAlike (illegalCommand s) (illegalCommand t) := by
  by_cases hop : s.op = .idle
  · rw [illegalCommand_idle s hop, illegalCommand_idle t (h.op_eq.trans hop)]
    exact (h.accept.complete .illegalCommand).answers
  · rw [illegalCommand_busy s hop, illegalCommand_busy t (h.op_eq ▸ hop)]
    exact h.reject.answers

/-! ## The busy steps (R127) -/

/-- The test engine's clock (R166, R184). -/
theorem clockedState_test (h : Alike s t) (hop : s.op ≠ .genks) :
    Alike (clockedState .test s) (clockedState .test t) := by
  obtain ⟨_, _, _, rfl⟩ := h.exists_contents
  exact (h.record s.test.r fun hg => absurd hg hop).frame

theorem repeatedState (h : Alike s t) (b : Bound) (hbusy : s.op ≠ .idle)
    (hseen : s.det.hasSeen (engineOf b s).r = true) :
    Alike (repeatedState b s) (repeatedState b t) := by
  have hengine : engineOf b t = engineOf b s := by rw [h.rest]; cases b <;> rfl
  rw [Machine.repeatedState, Machine.repeatedState, hengine]
  exact h.stopOn hbusy _ hseen

theorem finishCheck (h : Alike s t) : Alike (finishCheck s) (finishCheck t) := by
  obtain ⟨_, _, _, rfl⟩ := h.exists_contents
  exact h.frame.complete .ok

theorem endCandidate (h : Alike s t) : Alike (endCandidate s) (endCandidate t) := by
  have hpass : passCondition t.det = passCondition s.det := by rw [h.rest]; rfl
  rw [Machine.endCandidate, Machine.endCandidate, hpass, h.search_eq, h.test_eq]
  obtain ⟨_, _, _, rfl⟩ := h.exists_contents
  split
  · exact h.frame.complete .ok
  · split
    · exact h.frame.complete .ok
    · exact h.setupCandidate _

/-- KSLEN becomes readable up to CYCLE, just as far as the run has written the buffer (R204). -/
theorem finishGenks (h : Alike s t) (hop : s.op = .genks) :
    Alike (finishGenks s) (finishGenks t) := by
  have hones : t.det.ones = s.det.ones := by rw [h.rest]
  rw [Machine.finishGenks, Machine.finishGenks, hones, h.cycle_eq]
  split
  · exact (h.setLen s.det.cycle (h.written hop)).complete .ok
  · exact (h.setLen 0#32 nofun).complete .degenerateKeystream

/-- A GENKS clock writes the bit at CYCLE before CYCLE passes it (R203, R205). -/
theorem genksClock (h : Alike s t) :
    Alike
      (storeClock s.det.cycle s.live.r (feedback s.live) (output s.live) (clockedState .live s))
      (storeClock s.det.cycle s.live.r (feedback s.live) (output s.live) (clockedState .live t)) := by
  have hstored := h.storeBit s.det.cycle.toNat (BitVec.ofBool (output s.live))
  have hrecorded := hstored.record s.live.r fun _ => by simp [Memory.read_write]
  obtain ⟨_, _, _, rfl⟩ := h.exists_contents
  exact (hrecorded.setOnes (s.det.ones || output s.live)).frame

theorem checkBusyStep (h : Alike s t) (hop : s.op = .check) :
    Alike (checkBusyStep s) (checkBusyStep t) := by
  have hbusy : s.op ≠ .idle := by simp [hop]
  rw [checkBusyStep_eq, checkBusyStep_eq, h.cycle_eq, h.ncap_eq, h.test_eq,
    h.hasSeen_eq hbusy]
  split
  · exact h.finishCheck
  · split
    · exact (h.repeatedState .test hbusy ‹_›).finishCheck
    · exact h.clockedState_test (by simp [hop])

theorem searchBusyStep (h : Alike s t) (hop : s.op = .search) :
    Alike (searchBusyStep s) (searchBusyStep t) := by
  have hbusy : s.op ≠ .idle := by simp [hop]
  rw [searchBusyStep_eq, searchBusyStep_eq, h.cycle_eq, h.ncap_eq, h.test_eq,
    h.hasSeen_eq hbusy]
  split
  · exact h.endCandidate
  · split
    · exact (h.repeatedState .test hbusy ‹_›).endCandidate
    · exact h.clockedState_test (by simp [hop])

theorem genksBusyStep (h : Alike s t) (hop : s.op = .genks) :
    Alike (genksBusyStep s) (genksBusyStep t) := by
  have hbusy : s.op ≠ .idle := by simp [hop]
  rw [genksBusyStep_eq, genksBusyStep_eq, h.cycle_eq, h.ncap_eq, h.live_eq,
    h.hasSeen_eq hbusy]
  split
  · exact h.finishGenks hop
  · split
    · exact (h.repeatedState .live hbusy ‹_›).finishGenks hop
    · exact h.genksClock

theorem busyStep (h : Alike s t) : Alike (busyStep s) (busyStep t) := by
  have hop' := h.op_eq
  rcases op_cases s with hop | hop | hop | hop <;> rw [hop] at hop'
  · rwa [busyStep_idle s hop, busyStep_idle t hop']
  · rw [busyStep_check s hop, busyStep_check t hop']
    exact h.checkBusyStep hop
  · rw [busyStep_search s hop, busyStep_search t hop']
    exact h.searchBusyStep hop
  · rw [busyStep_genks s hop, busyStep_genks t hop']
    exact h.genksBusyStep hop

/-! ## The host's events and reset (R79, R400) -/

theorem popEvent (h : Alike s t) : Alike (popEvent s) (popEvent t) := by
  obtain ⟨_, _, _, rfl⟩ := h.exists_contents
  exact h.frame

theorem waitStep (h : Alike s t) : Alike (waitStep s) (waitStep t) := by
  rw [Machine.waitStep, Machine.waitStep, h.busy_eq]
  split
  · exact h.busyStep
  · exact h.popEvent

/-- Reset forgets what the stores held. -/
theorem resetEvent (h : Alike s t) : Alike (resetEvent s) (resetEvent t) := by
  have heq : Machine.resetEvent t = Machine.resetEvent s := by rw [h.rest]; rfl
  rw [heq]
  exact refl _

theorem readEffect (h : Alike s t) (off : Nat) : Alike (readEffect off s) (readEffect off t) := by
  rw [Machine.readEffect, Machine.readEffect, h.hostRead_eq]
  obtain ⟨_, _, _, rfl⟩ := h.exists_contents
  exact h.frame

theorem hostWrite (h : Alike s t) (off : Nat) (v : Word) :
    Alike (hostWrite s off v) (hostWrite t off v) := by
  have hconf : (Machine.hostWrite t off v).conf = (Machine.hostWrite s off v).conf := by
    rw [h.rest, hostWrite.eq_def, hostWrite.eq_def]
    split <;> rfl
  rw [hostWrite_eq s, hostWrite_eq t, hconf]
  obtain ⟨_, _, _, rfl⟩ := h.exists_contents
  exact h.frame

/-- The same access to alike states is refused alike, or has alike next states (R72 to R74). -/
theorem step_access (h : Alike s t) (a : Access) (rest : List Event)
    (he : s.events = .access a :: rest) : AnswersAlike (step s) (step t) := by
  have he' := h.events_eq.trans he
  cases hr : accessRefusal a with
  | some r =>
    rw [step_refused s a r rest he hr, step_refused t a r rest he' hr]
    exact .inr ⟨r, rfl, rfl⟩
  | none =>
    cases hk : a.kind with
    | read =>
      rw [step_read s a rest he hr hk, step_read t a rest he' hr hk]
      exact (h.popEvent.readEffect _).answers
    | write w =>
      by_cases ho : a.off = 0x00
      · rw [step_command s a w rest he hr hk ho, step_command t a w rest he' hr hk ho]
        cases decode w with
        | command i => exact h.popEvent.exec i
        | illegal why => exact h.popEvent.illegalCommand
      · rw [step_write s a w rest he hr hk ho, step_write t a w rest he' hr hk ho]
        exact (h.popEvent.hostWrite _ _).answers

theorem step (h : Alike s t) : AnswersAlike (step s) (step t) := by
  cases he : s.events with
  | nil =>
    rw [step_none s he, step_none t (h.events_eq.trans he)]
    exact h.busyStep.answers
  | cons e rest =>
    have he' := h.events_eq.trans he
    cases e with
    | access a => exact h.step_access a rest he
    | busy =>
      rw [step_busy s rest he, step_busy t rest he']
      exact h.popEvent.busyStep.answers
    | wait =>
      rw [step_wait s rest he, step_wait t rest he']
      exact h.waitStep.answers
    | reset =>
      rw [step_reset s rest he, step_reset t rest he']
      exact h.popEvent.resetEvent.answers

end Alike

/-- Settles O60: no register shows a store beyond KSDATA's readable bit, and each event of a step keeps the likeness. -/
theorem unspecifiedContentsAreUnobservable : Obligations.UnspecifiedContentsAreUnobservable := by
  intro s t h
  exact ⟨h.hostRead_eq, h.step⟩

end Sys2Proof.Machine
end

section
/-!
What the rule of an accepted command does to the command status (O7, R121 to R124).
-/
namespace Sys2Proof.Machine

/-- No command's rule writes MMAX, nor does it touch REJECTED (R47, R124). -/
theorem ruleOf_frame (i : Instr) (s : State) :
    (ruleOf i s).mmax = s.mmax ∧ (ruleOf i s).rejected = s.rejected := by
  cases i with
  | nop => exact ⟨rfl, rfl⟩
  | load =>
    rw [ruleOf, loadRule]
    split <;> exact ⟨rfl, rfl⟩
  | shift =>
    rw [ruleOf, shiftRule]
    split <;> exact ⟨rfl, rfl⟩
  | check =>
    rw [ruleOf, checkRule]
    split <;> exact ⟨rfl, rfl⟩
  | search =>
    rw [ruleOf, searchRule]
    split <;> exact ⟨rfl, rfl⟩
  | genks =>
    rw [ruleOf, genksRule]
    split <;> exact ⟨rfl, rfl⟩
  | cancel => exact ⟨rfl, rfl⟩

/-- A command's rule completes it, or starts one of the three that run and leaves DONE and ERR alone (R24, R124). -/
theorem ruleOf_completes_or_runs (i : Instr) (s : State) :
    ((ruleOf i s).op = .idle ∧ (ruleOf i s).doneBit = true) ∨
    ((ruleOf i s).doneBit = s.doneBit ∧ (ruleOf i s).err = s.err ∧
      ((i = .check ∧ (ruleOf i s).op = .check) ∨ (i = .search ∧ (ruleOf i s).op = .search) ∨
        (i = .genks ∧ (ruleOf i s).op = .genks))) := by
  cases i with
  | nop => exact .inl ⟨rfl, rfl⟩
  | load =>
    rw [ruleOf, loadRule]
    split <;> exact .inl ⟨rfl, rfl⟩
  | shift =>
    rw [ruleOf, shiftRule]
    split <;> exact .inl ⟨rfl, rfl⟩
  | check =>
    rw [ruleOf, checkRule]
    split
    · exact .inr ⟨rfl, rfl, .inl ⟨rfl, rfl⟩⟩
    · exact .inl ⟨rfl, rfl⟩
  | search =>
    rw [ruleOf, searchRule]
    split
    · exact .inr ⟨rfl, rfl, .inr (.inl ⟨rfl, rfl⟩)⟩
    · exact .inl ⟨rfl, rfl⟩
  | genks =>
    rw [ruleOf, genksRule]
    split
    · exact .inr ⟨rfl, rfl, .inr (.inr ⟨rfl, rfl⟩)⟩
    · exact .inl ⟨rfl, rfl⟩
  | cancel => exact .inl ⟨rfl, rfl⟩

/-- Settles O7: acceptance clears the status, and then the command's rule runs on it. -/
theorem acceptedCommandCompletesOrRuns : Obligations.AcceptedCommandCompletesOrRuns := by
  intro i s hop
  obtain ⟨_, hrejected⟩ := ruleOf_frame i (accept s)
  exact ⟨_, exec_idle i s hop, hrejected, ruleOf_completes_or_runs i (accept s)⟩

end Sys2Proof.Machine
end

section
/-!
The register words that pack fields (R42, R50), KSDATA and PARAM (R56, R47) as the host sees them.
-/
namespace Sys2Proof.Machine

/-! ## STATUS (R42, R300) -/

theorem busy_eq_decide (s : State) : busy s = decide (s.op ≠ .idle) := by
  rw [Bool.eq_iff_iff, busy_eq_true_iff, decide_eq_true_iff]

/-- Every bit of the STATUS word (R42). -/
theorem getLsbD_statusWord (s : State) (i : Nat) :
    (statusWord s).getLsbD i =
      ((decide (i = 0) && busy s) || (decide (i = 1) && s.doneBit) || (decide (i = 2) && s.loaded) ||
        (decide (i = 3) && s.rejected) ||
        (decide (i < 32) && decide (4 ≤ i) && s.err.bits.getLsbD (i - 4)) ||
        (decide (i = 8) && s.primitive) || (decide (i = 9) && s.search.verified) ||
        (decide (i = 10) && s.search.fallback) || (decide (i = 11) && s.det.repeated)) := by
  simp (disch := decide) only [statusWord, BitVec.getLsbD_or, getLsbD_field, getLsbD_flag]

theorem getLsbD_statusWord_of_ge (s : State) (i : Nat) (hi : 12 ≤ i) :
    (statusWord s).getLsbD i = false := by
  have herr : s.err.bits.getLsbD (i - 4) = false := BitVec.getLsbD_of_ge _ _ (by omega)
  rw [getLsbD_statusWord, herr]
  simp; omega

theorem extract_statusWord_err (s : State) : (statusWord s).extractLsb' 4 3 = s.err.bits := by
  apply BitVec.eq_of_getLsbD_eq
  intro j hj
  rw [BitVec.getLsbD_extractLsb', getLsbD_statusWord]
  simp (disch := omega) only [decide_eq_false, decide_eq_true]
  simp

/-- Settles O42, by the bits of the STATUS word. -/
theorem statusFields : Obligations.StatusFields := by
  refine ⟨?_, fun s v rest h => step_wr s .STATUS v rest h nofun,
    rfl, rfl, rfl, rfl, rfl, rfl, rfl⟩
  intro s v hv
  change v = statusWord s at hv
  subst hv
  refine ⟨?_, ?_, ?_, ?_, extract_statusWord_err s, ?_, ?_, ?_, ?_, ?_, getLsbD_statusWord_of_ge s⟩
  all_goals
    rw [getLsbD_statusWord]
    simp [busy_eq_decide]

/-! ## ENGINE (R50) -/

/-- Every bit of the ENGINE word (R50). -/
theorem getLsbD_engineWord (s : State) (i : Nat) :
    (engineWord s).getLsbD i =
      ((decide (i = 0) && s.lastOut) || (decide (i = 1) && s.lastFb) ||
        (decide (i = 2) && feedback s.live) ||
        (decide (i < 32) && decide (8 ≤ i) && (BitVec.ofNat 8 s.live.m).getLsbD (i - 8)) ||
        (decide (i < 32) && decide (16 ≤ i) && (BitVec.ofNat 8 s.test.m).getLsbD (i - 16))) := by
  simp (disch := decide) only [engineWord, BitVec.getLsbD_or, getLsbD_field, getLsbD_flag]

theorem getLsbD_engineWord_reserved (s : State) (i : Nat) (hi : 3 ≤ i ∧ i ≤ 7 ∨ 24 ≤ i) :
    (engineWord s).getLsbD i = false := by
  rw [getLsbD_engineWord]
  rcases hi with hi | hi
  · simp (disch := omega) only [decide_eq_false]
    simp
  · have hlive := BitVec.getLsbD_of_ge (BitVec.ofNat 8 s.live.m) (i - 8) (by omega)
    have htest := BitVec.getLsbD_of_ge (BitVec.ofNat 8 s.test.m) (i - 16) (by omega)
    rw [hlive, htest]
    simp; omega

theorem extract_engineWord_live (s : State) :
    (engineWord s).extractLsb' 8 8 = BitVec.ofNat 8 s.live.m := by
  apply BitVec.eq_of_getLsbD_eq
  intro j hj
  rw [BitVec.getLsbD_extractLsb', getLsbD_engineWord]
  simp (disch := omega) only [decide_eq_false, decide_eq_true]
  simp

theorem extract_engineWord_test (s : State) :
    (engineWord s).extractLsb' 16 8 = BitVec.ofNat 8 s.test.m := by
  have hlive := BitVec.getLsbD_of_ge (BitVec.ofNat 8 s.live.m)
  apply BitVec.eq_of_getLsbD_eq
  intro j hj
  rw [BitVec.getLsbD_extractLsb', getLsbD_engineWord, hlive _ (by omega)]
  simp (disch := omega) only [decide_eq_false, decide_eq_true]
  simp

/-- Eight bits hold every width up to 30, and so does PARAM's field hold MMAX (R6, R47). -/
theorem toNat_ofNat_width {m : Nat} (hm : m ≤ 30) : (BitVec.ofNat 8 m).toNat = m :=
  (BitVec.toNat_ofNat m 8).trans (Nat.mod_eq_of_lt (by omega))

/-- Settles O43, by the bits of the ENGINE word; the invariant bounds the two widths. -/
theorem engineFields : Obligations.EngineFields := by
  refine ⟨?_, rfl⟩
  intro s v hinv hv
  change v = engineWord s at hv
  subst hv
  have hmax := hinv.param.high
  have hlive := hinv.engines.live.width
  have htest := hinv.engines.test.width
  refine ⟨?_, ?_, ?_, fun i h3 h7 => getLsbD_engineWord_reserved s i (.inl ⟨h3, h7⟩), ?_, ?_,
    fun i h24 => getLsbD_engineWord_reserved s i (.inr h24)⟩
  · simp [getLsbD_engineWord, -BitVec.getLsbD_eq_getElem]
  · simp [getLsbD_engineWord, -BitVec.getLsbD_eq_getElem]
  · simp [getLsbD_engineWord, feedback, -BitVec.getLsbD_eq_getElem]
  · rw [extract_engineWord_live, toNat_ofNat_width (hlive.trans hmax)]
  · rw [extract_engineWord_test, toNat_ofNat_width (htest.trans hmax)]

/-! ## KSDATA (R56) -/

/-- Settles O44: KSDATA compares KSADDR with KSLEN as numbers, and a read only lists its value. -/
theorem ksdataReadsBelowKslen : Obligations.KsdataReadsBelowKslen := by
  intro s
  have hdata : hostRead s 0x38 = keystreamData s := rfl
  refine ⟨fun hlt => ?_, fun hge => ?_, fun rest h => ?_⟩
  · rw [hdata, keystreamData, if_pos (BitVec.lt_def.2 hlt)]
  · rw [hdata, keystreamData, if_neg (BitVec.not_lt.2 (BitVec.le_def.2 hge))]
  · exact ⟨_, rfl, step_rd s .KSDATA rest h⟩

/-! ## PARAM (R47) -/

theorem exec_mmax {i : Instr} {s t : State} (e : exec i s = .next t) : t.mmax = s.mmax := by
  by_cases hop : s.op = .idle
  · rw [exec_idle i s hop] at e
    cases e
    exact (ruleOf_frame i (accept s)).1
  · by_cases hi : i = .cancel
    · subst hi
      rw [exec_cancel_busy s hop] at e
      cases e
      rfl
    · rw [exec_busy i s hop hi] at e
      cases e
      rfl

theorem illegalCommand_mmax {s t : State} (e : illegalCommand s = .next t) : t.mmax = s.mmax := by
  by_cases hop : s.op = .idle
  · rw [illegalCommand_idle s hop] at e
    cases e
    rfl
  · rw [illegalCommand_busy s hop] at e
    cases e
    rfl

theorem busyStep_mmax (s : State) : (busyStep s).mmax = s.mmax := (busyStep_frame s).1

theorem step_mmax {s t : State} (hstep : step s = .next t) : t.mmax = s.mmax := by
  rcases step_cases s t hstep with ⟨_, rfl⟩ | ⟨_, _, rfl⟩ | ⟨_, _, rfl⟩ | ⟨_, _, rfl⟩ |
    ⟨_, _, _, rfl⟩ | ⟨_, _, _, _, _, rfl⟩ | ⟨_, _, _, _, _, e⟩ | ⟨_, _, _, _, _, e⟩
  · exact busyStep_mmax s
  · exact busyStep_mmax (popEvent s)
  · rw [waitStep]
    split
    · exact busyStep_mmax s
    · rfl
  · rfl
  · rfl
  · rw [hostWrite_eq]
    rfl
  · exact (exec_mmax e).trans (popEvent_mmax s)
  · exact (illegalCommand_mmax e).trans (popEvent_mmax s)

/-- Settles O45: PARAM shows MMAX, which no kind of step writes (R79). -/
theorem paramIsConstant : Obligations.ParamIsConstant := by
  refine ⟨fun s hm => ?_, fun s t => step_mmax,
    fun s v rest h => step_wr s .PARAM v rest h nofun⟩
  change (field (BitVec.ofNat 8 s.mmax) 0).toNat = s.mmax
  rw [field, BitVec.shiftLeft_zero, BitVec.toNat_setWidth, toNat_ofNat_width hm]
  omega

end Sys2Proof.Machine
end

section
/-!
The state right after reset (O51, O55, R60).
-/
namespace Sys2Proof.Machine

/-- MMAX is a legal parameter, whatever the block was built with (R6). -/
theorem config_mmax_legal : 2 ≤ Config.mmax ∧ Config.mmax ≤ 30 := by
  have hlt := Config.mmaxAboveTwo.isLt
  rw [Config.mmax]
  omega

/-- Settles O51: the table of R60 entry by entry, with the range of MMAX from R6. -/
theorem resetValues : Obligations.ResetValues :=
  ⟨rfl, rfl, rfl, rfl, rfl, rfl, rfl, rfl, rfl, rfl, rfl, rfl, rfl, rfl, rfl, rfl, rfl, rfl, rfl, rfl,
    config_mmax_legal⟩

/-- Settles O55: every legal MMAX gives a reset state of the invariant. -/
theorem resetMeetsTheInvariant : Obligations.ResetMeetsTheInvariant :=
  inv_resetAt config_mmax_legal.1 config_mmax_legal.2

end Sys2Proof.Machine
end

section
/-!
The host port (O46 to O48): which accesses are defined, and what a defined read or write does (R72 to R74).
-/
namespace Sys2Proof.Machine

theorem accessRefusal_defined {off : Nat} (k : AccessKind) (halign : off % 4 = 0) (hoff : off ≤ 0xFC) :
    accessRefusal { bits := 32, off := off, kind := k } = none :=
  (accessRefusal_eq_none_iff _).2 ⟨rfl, halign, by simp only; omega⟩

/-! ## Reads (R72) -/

theorem hostRead_reserved (s : State) {off : Nat} (hoff : 0x48 ≤ off) : hostRead s off = 0#32 := by
  simp (disch := omega) only [hostRead]

/-- Settles O46: a defined read lists the register of the table of R40, and only that. -/
theorem hostReadReturnsTheRegister : Obligations.HostReadReturnsTheRegister := by
  intro s
  refine ⟨fun off rest halign hoff h => ?_, rfl, rfl, rfl, rfl, rfl, rfl, rfl, rfl, rfl, rfl, rfl, rfl,
    rfl, rfl, rfl, rfl, rfl, fun _ => hostRead_reserved s⟩
  rw [step_read s _ rest h (accessRefusal_defined .read halign hoff) rfl, popEvent_eq s _ rest h]
  rfl

/-! ## Writes (R73) -/

/-- Only the four configuration registers take a write (R73, R59). -/
theorem hostWrite_ignored (s : State) {off : Nat} (v : Word) (hwidth : off ≠ 0x08) (hseed : off ≠ 0x0C)
    (htaps : off ≠ 0x10) (hksaddr : off ≠ 0x14) : hostWrite s off v = s := by
  simp (disch := omega) only [hostWrite]

/-- Settles O47: a write outside CMD is `hostWrite`, whatever OP is. -/
theorem hostWriteStoresConfiguration : Obligations.HostWriteStoresConfiguration := by
  intro s v rest
  refine ⟨fun h => step_wr s .WIDTH v rest h nofun, fun h => step_wr s .SEED v rest h nofun,
    fun h => step_wr s .TAPS v rest h nofun, fun h => step_wr s .KSADDR v rest h nofun, ?_⟩
  intro off halign hoff hcmd hwidth hseed htaps hksaddr h
  rw [step_write s _ v rest h (accessRefusal_defined _ halign hoff) rfl hcmd, popEvent_eq s _ rest h,
    hostWrite_ignored _ v hwidth hseed htaps hksaddr]

/-! ## Undefined accesses (R74) -/

/-- No command faults or is refused: it is accepted, rejected or cancels (R120, R304). -/
theorem exec_has_next (i : Instr) (s : State) : ∃ t, exec i s = .next t := by
  by_cases hop : s.op = .idle
  · exact ⟨_, exec_idle i s hop⟩
  · by_cases hi : i = .cancel
    · subst hi
      exact ⟨_, exec_cancel_busy s hop⟩
    · exact ⟨_, exec_busy i s hop hi⟩

theorem illegalCommand_has_next (s : State) : ∃ t, illegalCommand s = .next t := by
  by_cases hop : s.op = .idle
  · exact ⟨_, illegalCommand_idle s hop⟩
  · exact ⟨_, illegalCommand_busy s hop⟩

theorem step_has_next_of_access (s : State) (a : Access) (rest : List Event)
    (h : s.events = .access a :: rest) (ha : accessRefusal a = none) : ∃ t, step s = .next t := by
  cases hk : a.kind with
  | read => exact ⟨_, step_read s a rest h ha hk⟩
  | write v =>
    by_cases ho : a.off = 0x00
    · rw [step_command s a v rest h ha hk ho]
      cases decode v with
      | command i => exact exec_has_next i _
      | illegal _ => exact illegalCommand_has_next _
    · exact ⟨_, step_write s a v rest h ha hk ho⟩

/-- Settles O48: the port refuses exactly the accesses with a broken condition of R74, and every other event has a next
state. -/
theorem undefinedAccessesAreRefused : Obligations.UndefinedAccessesAreRefused := by
  intro s
  refine ⟨fun a rest h hbad => ?_, fun hgood => ?_⟩
  · cases hr : accessRefusal a with
    | some r => exact ⟨r, step_refused s a r rest h hr⟩
    | none =>
      have hdefined := (accessRefusal_eq_none_iff a).1 hr
      omega
  · cases he : s.events with
    | nil => exact ⟨_, step_none s he⟩
    | cons e rest =>
      cases e with
      | access a =>
        exact step_has_next_of_access s a rest he ((accessRefusal_eq_none_iff a).2 (hgood a rest he))
      | busy => exact ⟨_, step_busy s rest he⟩
      | wait => exact ⟨_, step_wait s rest he⟩
      | reset => exact ⟨_, step_reset s rest he⟩

end Sys2Proof.Machine
end

section
/-!
Decoding and encoding (O1 to O3, R100 to R103): when a word spells a given command.
-/
namespace Sys2Proof

/-- The opcode of every command is one of the seven of R102. -/
theorem toNat_encode_le (i : Instr) : (encode i).toNat ≤ 6 := by
  cases i <;> decide

/-- The opcode map of R102 read backwards. -/
theorem decodeOp_eq_command_iff (op : BitVec 4) (i : Instr) :
    decodeOp op = .command i ↔ op.toNat = (encode i).toNat := by
  constructor
  · intro h
    rw [decodeOp] at h
    split at h <;> cases h <;> assumption
  · intro h
    rw [decodeOp, h]
    cases i <;> rfl

/-- A word spells a command iff RSV is 0 and OP is the command's opcode (R100, R103). -/
theorem decode_eq_command_iff (w : Word) (i : Instr) :
    decode w = .command i ↔ w.toNat / 16 = 0 ∧ w.toNat % 16 = (encode i).toNat := by
  rw [← rsvField_eq_zero_iff, ← opField_toNat, ← decodeOp_eq_command_iff, decode]
  by_cases hrsv : rsvField w = 0#28 <;> simp [hrsv]

/-- Settles O3: a word below 16 is its own opcode. -/
theorem decodeAndEncodeAgree : Obligations.DecodeAndEncodeAgree := by
  intro w i
  have hle := toNat_encode_le i
  rw [decode_eq_command_iff, ← BitVec.toNat_inj]
  omega

theorem decode_encode (i : Instr) : decode (encode i) = .command i :=
  (decodeAndEncodeAgree _ i).2 rfl

/-- In R102's order the commands are numbered by their opcodes. -/
theorem toNat_encode_getD : ∀ n ≤ 6,
    (encode ([Instr.nop, .load, .shift, .check, .search, .genks, .cancel].getD n .nop)).toNat = n := by
  decide

/-- Settles O2: the opcode numbers the command, and a word that spells one has RSV 0 and an opcode up to 6. -/
theorem decodingIsTotalAndExact : Obligations.DecodingIsTotalAndExact := by
  intro w
  refine ⟨fun ⟨hrsv, hop⟩ => ?_, fun hno => ?_⟩
  · exact (decode_eq_command_iff w _).2 ⟨hrsv, (toNat_encode_getD _ hop).symm⟩
  · cases hd : decode w with
    | illegal why => exact ⟨why, rfl⟩
    | command i =>
      obtain ⟨hrsv, hop⟩ := (decode_eq_command_iff w i).1 hd
      exact absurd ⟨hrsv, hop ▸ toNat_encode_le i⟩ hno

/-- Settles O1: the seven words are those the encoder gives, so the decoder reads each back. -/
theorem decodesTheSevenWords : Obligations.DecodesTheSevenWords :=
  ⟨decode_encode .nop, decode_encode .load, decode_encode .shift, decode_encode .check,
    decode_encode .search, decode_encode .genks, decode_encode .cancel⟩

end Sys2Proof
end

section
/-!
What a command reads of the configuration registers at acceptance (O50, R105, R130): replacing the registers it does not
read commutes with the command.
-/
namespace Sys2Proof.Machine

section

variable {s : State} {c : ConfigRegs}

/-- `valid_width` reads only WIDTH (R130). -/
theorem validWidth_setConf (hwidth : c.width = s.conf.width) :
    validWidth { s with conf := c } = validWidth s := by
  simp only [validWidth, hwidth]

/-- CHECK's operand check reads only WIDTH and TAPS (R165). -/
theorem checkOperandsValid_setConf (hwidth : c.width = s.conf.width) (htaps : c.taps = s.conf.taps) :
    checkOperandsValid { s with conf := c } = checkOperandsValid s := by
  simp only [checkOperandsValid, widthOperand, validWidth_setConf hwidth, hwidth, htaps]

/-- LOAD's operand check does not read KSADDR (R145). -/
theorem loadOperandsValid_setConf (hwidth : c.width = s.conf.width) (hseed : c.seed = s.conf.seed)
    (htaps : c.taps = s.conf.taps) :
    loadOperandsValid { s with conf := c } = loadOperandsValid s := by
  simp only [loadOperandsValid, widthOperand, validWidth_setConf hwidth, hwidth, hseed, htaps]

theorem loadRule_setConf (hwidth : c.width = s.conf.width) (hseed : c.seed = s.conf.seed)
    (htaps : c.taps = s.conf.taps) :
    loadRule { s with conf := c } = { loadRule s with conf := c } := by
  rw [loadRule, loadRule, loadOperandsValid_setConf hwidth hseed htaps]
  split
  · simp only [widthOperand, hwidth, hseed, htaps, complete]
  · rfl

theorem shiftRule_setConf (s : State) (c : ConfigRegs) :
    shiftRule { s with conf := c } = { shiftRule s with conf := c } := by
  rw [shiftRule, shiftRule]
  split <;> rfl

theorem checkRule_setConf (hwidth : c.width = s.conf.width) (htaps : c.taps = s.conf.taps) :
    checkRule { s with conf := c } = { checkRule s with conf := c } := by
  rw [checkRule, checkRule, checkOperandsValid_setConf hwidth htaps]
  split
  · simp only [widthOperand, hwidth, htaps]
  · rfl

theorem searchRule_setConf (hwidth : c.width = s.conf.width) :
    searchRule { s with conf := c } = { searchRule s with conf := c } := by
  rw [searchRule, searchRule, validWidth_setConf hwidth]
  split
  · simp only [widthOperand, hwidth, setupCandidate]
  · rfl

theorem genksRule_setConf (s : State) (c : ConfigRegs) :
    genksRule { s with conf := c } = { genksRule s with conf := c } := by
  rw [genksRule, genksRule]
  split <;> rfl

/-- A command's rule reads only the configuration registers that R105 lists for it. -/
theorem ruleOf_setConf (i : Instr)
    (hload : i = .load → c.width = s.conf.width ∧ c.seed = s.conf.seed ∧ c.taps = s.conf.taps)
    (hcheck : i = .check → c.width = s.conf.width ∧ c.taps = s.conf.taps)
    (hsearch : i = .search → c.width = s.conf.width) :
    ruleOf i { s with conf := c } = { ruleOf i s with conf := c } := by
  cases i with
  | nop => rfl
  | load =>
    obtain ⟨hwidth, hseed, htaps⟩ := hload rfl
    exact loadRule_setConf hwidth hseed htaps
  | shift => exact shiftRule_setConf s c
  | check =>
    obtain ⟨hwidth, htaps⟩ := hcheck rfl
    exact checkRule_setConf hwidth htaps
  | search => exact searchRule_setConf (hsearch rfl)
  | genks => exact genksRule_setConf s c
  | cancel => rfl

end

/-- Settles O50: an idle block runs the command's rule on its operands, and a busy block, which rejects or cancels, reads
none. -/
theorem commandsReadOnlyTheirOperands : Obligations.CommandsReadOnlyTheirOperands := by
  intro i s c hload hcheck hsearch
  by_cases hop : s.op = .idle
  · refine ⟨_, exec_idle i s hop, ?_⟩
    rw [exec_idle i { s with conf := c } hop]
    exact congrArg _ (ruleOf_setConf (s := accept s) i hload hcheck hsearch)
  · by_cases hi : i = .cancel
    · subst hi
      exact ⟨_, exec_cancel_busy s hop, exec_cancel_busy { s with conf := c } hop⟩
    · exact ⟨_, exec_busy i s hop hi, exec_busy i { s with conf := c } hop hi⟩

end Sys2Proof.Machine
end

section
/-!
Words written to CMD (O4 to O6, O9, O10, R120 to R126), and what a busy step neither reads nor writes (O6, O49).
-/
namespace Sys2Proof.Machine

/-! ## A write of CMD as the next event (R76, R120) -/

theorem step_wr_command {s : State} {w : Word} {i : Instr} {rest : List Event}
    (h : s.events = wr .CMD w :: rest) (hd : decode w = .command i) :
    step s = exec i { s with events := rest } := by
  rw [step_wr_cmd s w rest h, hd, popEvent_eq s _ rest h]

theorem step_wr_illegal {s : State} {w : Word} {why : Illegal} {rest : List Event}
    (h : s.events = wr .CMD w :: rest) (hd : decode w = .illegal why) :
    step s = illegalCommand { s with events := rest } := by
  rw [step_wr_cmd s w rest h, hd, popEvent_eq s _ rest h]

/-- A table row of 32 bits is its word (R101). -/
theorem tableWord_toNat (w : Word) : tableWord 32 w.toNat = w := by
  rw [tableWord, Nat.mod_eq_of_lt w.isLt, BitVec.ofNat_toNat, BitVec.setWidth_eq]

/-- Settles O4: the port hands the written word to the decoder, and a placed word is a write that comes first. -/
theorem stepRunsTheDecodedCommand : Obligations.StepRunsTheDecodedCommand := by
  intro s w i hd
  refine ⟨fun rest h => step_wr_command h hd, ?_⟩
  have hplaced : (placeCommand w s).events = wr .CMD w :: s.events := rfl
  rw [State.withFetchWord, tableWord_toNat, step_wr_command hplaced hd]
  rfl

/-! ## Illegal words, NOP and CANCEL (R122, R125, R126) -/

/-- STATUS where no command runs and LOADED and the result flags are 0: DONE, ERR and REJECTED alone (R42). -/
theorem statusWord_of_idle_cleared {s : State} (hop : s.op = .idle) (hloaded : s.loaded = false)
    (hprimitive : s.primitive = false) (hverified : s.search.verified = false)
    (hfallback : s.search.fallback = false) (hrepeat : s.det.repeated = false) :
    statusWord s = flag s.doneBit 1 ||| flag s.rejected 3 ||| field s.err.bits 4 := by
  have hzero : ∀ lo, flag false lo = 0#32 := fun lo => by simp [flag, field]
  rw [statusWord, (busy_eq_false_iff s).2 hop, hloaded, hprimitive, hverified, hfallback, hrepeat]
  simp [hzero]

/-- What a command that only completes leaves of an idle block (R121, R124). -/
theorem complete_accept_of_idle {s : State} (hop : s.op = .idle) (code : ErrCode) :
    complete code (accept s) = { s with doneBit := true, err := code, rejected := false } := by
  rw [complete, accept, ← hop]

/-- Settles O5: by R103 the word is illegal, and its rule completes with IllegalCommand on the cleared status. -/
theorem illegalWordWhileIdle : Obligations.IllegalWordWhileIdle := by
  intro s w rest hop h hw
  obtain ⟨why, hd⟩ := (decodingIsTotalAndExact w).2 (by omega)
  refine ⟨_, rfl, ?_, fun hloaded hprimitive hverified hfallback hrepeat => ?_⟩
  · rw [step_wr_illegal h hd, illegalCommand_idle { s with events := rest } hop,
      complete_accept_of_idle (s := { s with events := rest }) hop]
  · have hword : flag true 1 ||| flag false 3 ||| field ErrCode.illegalCommand.bits 4 = 0x32#32 := by
      decide
    exact (statusWord_of_idle_cleared (s := { s with
      events := rest, doneBit := true, err := .illegalCommand, rejected := false })
      hop hloaded hprimitive hverified hfallback hrepeat).trans hword

/-- Settles O9: NOP's rule only completes, and while busy it is a command like any other but CANCEL. -/
theorem nopCompletesWithOk : Obligations.NopCompletesWithOk := by
  refine ⟨decode_encode .nop, fun s => ⟨fun hop => ?_, fun hop => exec_busy .nop s hop nofun⟩⟩
  rw [exec_idle .nop s hop, ruleOf, complete_accept_of_idle hop]

/-- Settles O10: CANCEL only completes, and the invariant says that the results of a running command are cleared. -/
theorem cancelEndsTheRunningCommand : Obligations.CancelEndsTheRunningCommand := by
  refine ⟨decode_encode .cancel, fun s => ⟨fun hop => ?_, fun hop => ?_⟩⟩
  · rw [exec_idle .cancel s hop, ruleOf, complete_accept_of_idle hop]
  · refine ⟨_, rfl, exec_cancel_busy s hop, fun hinv => ?_⟩
    obtain ⟨_, hcheck, hsearch, hgenks⟩ := hinv.status
    refine ⟨hcheck, fun hs => ?_, fun hg => (hgenks hg).2⟩
    obtain ⟨hprimitive, htaps, hverified, hfallback⟩ := hsearch hs
    exact ⟨htaps, hverified, hfallback, hprimitive⟩

/-! ## What a busy step neither reads nor writes (R123, R129) -/

section

variable (s : State) (r : Bool) (c : ConfigRegs)

theorem endCandidate_setRejectedConf :
    endCandidate { s with rejected := r, conf := c } =
      { endCandidate s with rejected := r, conf := c } := by
  rw [endCandidate, endCandidate]
  split
  · rfl
  · split <;> rfl

theorem finishGenks_setRejectedConf :
    finishGenks { s with rejected := r, conf := c } =
      { finishGenks s with rejected := r, conf := c } := by
  rw [finishGenks, finishGenks]
  split <;> rfl

theorem checkBusyStep_setRejectedConf :
    checkBusyStep { s with rejected := r, conf := c } =
      { checkBusyStep s with rejected := r, conf := c } := by
  rw [checkBusyStep_eq, checkBusyStep_eq]
  split
  · rfl
  · split <;> rfl

theorem searchBusyStep_setRejectedConf :
    searchBusyStep { s with rejected := r, conf := c } =
      { searchBusyStep s with rejected := r, conf := c } := by
  rw [searchBusyStep_eq, searchBusyStep_eq]
  split
  · exact endCandidate_setRejectedConf s r c
  · split
    · exact endCandidate_setRejectedConf (repeatedState .test s) r c
    · rfl

theorem genksBusyStep_setRejectedConf :
    genksBusyStep { s with rejected := r, conf := c } =
      { genksBusyStep s with rejected := r, conf := c } := by
  rw [genksBusyStep_eq, genksBusyStep_eq]
  split
  · exact finishGenks_setRejectedConf s r c
  · split
    · exact finishGenks_setRejectedConf (repeatedState .live s) r c
    · rfl

/-- A busy step of any command commutes with setting REJECTED and the configuration registers. -/
theorem busyStep_setRejectedConf :
    busyStep { s with rejected := r, conf := c } =
      { busyStep s with rejected := r, conf := c } := by
  rcases op_cases s with hop | hop | hop | hop
  · rw [busyStep_idle s hop, busyStep_idle { s with rejected := r, conf := c } hop]
  · rw [busyStep_check s hop, busyStep_check { s with rejected := r, conf := c } hop]
    exact checkBusyStep_setRejectedConf s r c
  · rw [busyStep_search s hop, busyStep_search { s with rejected := r, conf := c } hop]
    exact searchBusyStep_setRejectedConf s r c
  · rw [busyStep_genks s hop, busyStep_genks { s with rejected := r, conf := c } hop]
    exact genksBusyStep_setRejectedConf s r c

end

theorem busyStep_conf (s : State) : (busyStep s).conf = s.conf :=
  (congrArg State.conf (busyStep_setRejectedConf s s.rejected s.conf) :)

/-- No busy step clears REJECTED, the completing one included (R123). -/
theorem busyStep_rejected (s : State) : (busyStep s).rejected = s.rejected :=
  (congrArg State.rejected (busyStep_setRejectedConf s s.rejected s.conf) :)

/-- Settles O49: setting the configuration, with REJECTED as it stands, commutes with the busy step. -/
theorem runningCommandIgnoresConfiguration : Obligations.RunningCommandIgnoresConfiguration := by
  intro s c
  refine ⟨(busyStep_setRejectedConf s s.rejected c).trans ?_, busyStep_conf s⟩
  rw [← busyStep_rejected s]

/-! ## REJECTED over the words written to CMD (R121, R123) -/

/-- A busy block rejects every word that does not spell CANCEL, legal or not (R123). -/
theorem step_wr_busy {s : State} {w : Word} {rest : List Event} (hop : s.op ≠ .idle)
    (h : s.events = wr .CMD w :: rest) (hw : w ≠ encode .cancel) :
    step s = .next (reject { s with events := rest }) := by
  cases hd : decode w with
  | illegal why => rw [step_wr_illegal h hd, illegalCommand_busy { s with events := rest } hop]
  | command i =>
    have hi : i ≠ .cancel := fun e => hw ((decodeAndEncodeAgree w .cancel).1 (e ▸ hd))
    rw [step_wr_command h hd, exec_busy i { s with events := rest } hop hi]

/-- An idle block accepts every word, and acceptance clears REJECTED (R121, R122). -/
theorem step_wr_idle_rejected {s : State} {w : Word} {rest : List Event} (hop : s.op = .idle)
    (h : s.events = wr .CMD w :: rest) : ∃ t, step s = .next t ∧ t.rejected = false := by
  cases hd : decode w with
  | illegal why =>
    rw [step_wr_illegal h hd, illegalCommand_idle { s with events := rest } hop]
    exact ⟨_, rfl, rfl⟩
  | command i =>
    rw [step_wr_command h hd, exec_idle i { s with events := rest } hop]
    exact ⟨_, rfl, (ruleOf_frame i _).2⟩

/-- Settles O6: rejection sets REJECTED, no busy step touches it, and acceptance clears it. -/
theorem busyRejectsAllButCancel : Obligations.BusyRejectsAllButCancel :=
  ⟨fun _ _ _ hop h hw => step_wr_busy hop h hw, busyStep_rejected,
    fun _ _ _ hop h => step_wr_idle_rejected hop h⟩

/-! ## The block's turn and the host's wait (R107, R127, R128) -/

theorem waitStep_busy {s : State} (hop : s.op ≠ .idle) : waitStep s = busyStep s := by
  rw [waitStep, if_pos ((busy_eq_true_iff s).2 hop)]

theorem waitStep_idle {s : State} (hop : s.op = .idle) : waitStep s = popEvent s := by
  rw [waitStep, (busy_eq_false_iff s).2 hop, if_neg Bool.false_ne_true]

/-- Settles O54, one event of the total order after another (R79). -/
theorem idleBlockKeepsItsState : Obligations.IdleBlockKeepsItsState := by
  refine fun s rest => ⟨step_none s, fun h => ?_, busyStep_idle s, fun h hop => ?_, fun h hop => ?_⟩
  · rw [step_busy s rest h, popEvent_eq s _ rest h]
  · rw [step_wait s rest h, waitStep_busy hop]
  · rw [step_wait s rest h, waitStep_idle hop, popEvent_eq s _ rest h]

end Sys2Proof.Machine
end

section
/-!
A running command completes (O58, O59; R128, R173, R190, R210, R410). One number bounds the busy steps still to come: the
clocks the cap leaves, the step that ends the run, and a whole run for each candidate SEARCH has not begun. Every
busy step completes the command or lowers that number.
-/
namespace Sys2Proof.Machine

/-- The clocks the cap leaves to the running detector (R162). -/
def Detector.clocksLeft (d : Detector) : Nat := d.ncap.toNat - d.cycle.toNat

/-- The candidates that a running SEARCH has not begun (R181). -/
def candidatesLeft (s : State) : Nat :=
  if s.op = .search then 2 ^ (s.test.m - 1) - 1 - s.search.searchI.toNat else 0

/-- A bound on the busy steps still to come, the step that ends a run counted with its clocks. -/
def stepsLeft (s : State) : Nat := candidatesLeft s * 2 ^ s.test.m + s.det.clocksLeft + 1

/-- The command has ended, and DONE says so (R124). -/
def Completed (s : State) : Prop := s.op = .idle ∧ s.doneBit = true

/-- What a busy step does towards completion: it completes, or the command runs on with fewer steps left. -/
def Advances (s t : State) : Prop := Completed t ∨ (t.op = s.op ∧ stepsLeft t < stepsLeft s)

theorem completed_finishGenks (s : State) : Completed (finishGenks s) := by
  rw [finishGenks]
  split <;> exact ⟨rfl, rfl⟩

/-! ## Every busy step advances -/

/-- A clock below the cap uses up one of the clocks left. -/
theorem Detector.Ok.clocksLeft_record {mmax : Nat} {d : Detector} (h : d.Ok mmax) (hmax : mmax ≤ 30)
    (hne : d.cycle ≠ d.ncap) (r : Word) : (d.record r).clocksLeft < d.clocksLeft := by
  have hlt := h.cycle_lt hne
  have hsucc : (d.record r).cycle.toNat = d.cycle.toNat + 1 := h.cycle_succ hmax
  change d.ncap.toNat - (d.record r).cycle.toNat < d.ncap.toNat - d.cycle.toNat
  omega

/-- A clock of the running detector advances any command, whatever else the step stores (R166, R184, R203). -/
theorem advances_of_record {s t : State} (h : Inv s) (hne : s.det.cycle ≠ s.det.ncap) (r : Word)
    (hop : t.op = s.op) (hm : t.test.m = s.test.m) (hsearch : t.search = s.search)
    (hdet : t.det.clocksLeft = (s.det.record r).clocksLeft) : Advances s t := by
  have hclock := h.resting.det.clocksLeft_record h.resting.high hne r
  refine .inr ⟨hop, ?_⟩
  simp only [stepsLeft, candidatesLeft, hop, hm, hsearch, hdet]
  omega

/-- From DetStart, the clocks up to the cap and the ending step make `2^m` steps (R161). -/
theorem clocksLeft_detStart {m : Nat} (hm : m ≤ 30) (d : Detector) :
    (detStart m d).clocksLeft + 1 = 2 ^ m := by
  have hcap : (detStart m d).ncap.toNat = 2 ^ m - 1 := toNat_mask m (by omega)
  have hpos := Nat.two_pow_pos m
  have hcycle : (detStart m d).cycle.toNat = 0 := rfl
  rw [Detector.clocksLeft, hcap, hcycle]
  omega

@[simp] theorem setupCandidate_test_m (i : Word) (s : State) :
    (setupCandidate i s).test.m = s.test.m := rfl

/-- Beginning the next candidate gives one of the runs left for its clocks (R184, R185). -/
theorem stepsLeft_setupCandidate_lt {s : State} (hop : s.op = .search) (hm : s.test.m ≤ 30)
    (hlast : s.search.searchI.toNat ≤ 2 ^ (s.test.m - 1) - 1)
    (hne : s.search.searchI ≠ lastCandidate s.test.m) :
    stepsLeft (setupCandidate (s.search.searchI + 1#32) s) < stepsLeft s := by
  obtain ⟨hsucc, hnext⟩ := succ_candidate_le hm hlast hne
  have hrun := clocksLeft_detStart hm s.det
  have hcand : candidatesLeft s = candidatesLeft (setupCandidate (s.search.searchI + 1#32) s) + 1 := by
    simp only [candidatesLeft, setupCandidate_op, setupCandidate_test_m, setupCandidate_search, hop,
      if_true, hsucc]
    omega
  rw [stepsLeft, stepsLeft, hcand, Nat.succ_mul, setupCandidate_test_m, setupCandidate_det]
  omega

/-- The end of a candidate's run, with the detector stopped where its clocks left it (R184). -/
theorem advances_endCandidate {s : State} (h : Inv s) (hop : s.op = .search) {d : Detector}
    (hd : d.clocksLeft = s.det.clocksLeft) : Advances s (endCandidate { s with det := d }) := by
  obtain ⟨_, hlast, _⟩ := h.running.candidate hop
  have hm : s.test.m ≤ 30 := Nat.le_trans h.resting.test.width h.resting.high
  have hsame : stepsLeft { s with det := d } = stepsLeft s := by
    rw [stepsLeft, stepsLeft, hd, candidatesLeft, candidatesLeft]
  rcases endCandidate_cases { s with det := d } with ⟨_, e⟩ | ⟨_, _, e⟩ | ⟨_, hne, e⟩ <;> rw [e]
  · exact .inl ⟨rfl, rfl⟩
  · exact .inl ⟨rfl, rfl⟩
  · exact .inr ⟨rfl, hsame ▸ stepsLeft_setupCandidate_lt hop hm hlast hne⟩

theorem advances_checkBusyStep {s : State} (h : Inv s) : Advances s (checkBusyStep s) := by
  rcases checkBusyStep_cases s with ⟨hne, _, e⟩ | ⟨_, e⟩ | ⟨_, _, e⟩ <;> rw [e]
  · exact advances_of_record h hne s.test.r rfl rfl rfl rfl
  · exact .inl ⟨rfl, rfl⟩
  · exact .inl ⟨rfl, rfl⟩

theorem advances_searchBusyStep {s : State} (h : Inv s) (hop : s.op = .search) :
    Advances s (searchBusyStep s) := by
  rcases searchBusyStep_cases s with ⟨hne, _, e⟩ | ⟨_, e⟩ | ⟨_, _, e⟩ <;> rw [e]
  · exact advances_of_record h hne s.test.r rfl rfl rfl rfl
  · exact advances_endCandidate h hop (d := s.det) rfl
  · exact advances_endCandidate h hop (d := s.det.stopOn s.test.r) rfl

theorem advances_genksBusyStep {s : State} (h : Inv s) : Advances s (genksBusyStep s) := by
  rcases genksBusyStep_cases s with ⟨hne, _, e⟩ | ⟨_, e⟩ | ⟨_, _, e⟩ <;> rw [e]
  · exact advances_of_record h hne s.live.r rfl rfl rfl rfl
  · exact .inl (completed_finishGenks s)
  · exact .inl (completed_finishGenks _)

theorem advances_busyStep {s : State} (h : Inv s) (hbusy : s.op ≠ .idle) :
    Advances s (busyStep s) := by
  rcases op_cases s with hop | hop | hop | hop
  · exact absurd hop hbusy
  · rw [busyStep_check s hop]
    exact advances_checkBusyStep h
  · rw [busyStep_search s hop]
    exact advances_searchBusyStep h hop
  · rw [busyStep_genks s hop]
    exact advances_genksBusyStep h

/-! ## Completion -/

/-- Any bound on the steps left bounds the busy steps to completion, by induction on the bound. -/
theorem completes_within {n : Nat} {s : State} (h : Inv s) (hbusy : s.op ≠ .idle)
    (hn : stepsLeft s ≤ n) : ∃ k, k ≤ n ∧ Completed (busySteps k s) := by
  induction n generalizing s with
  | zero => exact absurd hn (Nat.not_succ_le_zero _)
  | succ n ih =>
    rcases advances_busyStep h hbusy with hdone | ⟨hop, hlt⟩
    · exact ⟨1, Nat.succ_le_succ (Nat.zero_le n), hdone⟩
    · obtain ⟨k, hk, hdone⟩ := ih (inv_busyStep h) (hop ▸ hbusy) (by omega)
      exact ⟨k + 1, Nat.succ_le_succ hk, hdone⟩

/-- While a command runs, its clocks and the ending step are within `2^m` (R164, R173). -/
theorem clocksLeft_succ_le {s : State} (h : Inv s) (hbusy : s.op ≠ .idle) :
    s.det.clocksLeft + 1 ≤ 2 ^ runWidth s := by
  have hcap := (h.running.det hbusy).cap
  have hpos := Nat.two_pow_pos (runWidth s)
  rw [Detector.clocksLeft, hcap]
  omega

/-- Settles O58: without candidates to come, only the clocks the cap leaves and the ending step count. -/
theorem checkAndGenksFinish : Obligations.CheckAndGenksFinish := by
  intro s h hop
  have hbusy : s.op ≠ .idle := by rcases hop with e | e <;> simp [e]
  have hnsearch : s.op ≠ .search := by rcases hop with e | e <;> simp [e]
  refine completes_within h hbusy ?_
  rw [stepsLeft, candidatesLeft, if_neg hnsearch, Nat.zero_mul, Nat.zero_add]
  exact clocksLeft_succ_le h hbusy

/-- Settles O59: the candidate under test and those after it have a run of at most `2^m` steps each. -/
theorem searchFinishes : Obligations.SearchFinishes := by
  intro s h hop
  have hbusy : s.op ≠ .idle := by simp [hop]
  have hclocks := clocksLeft_succ_le h hbusy
  rw [runWidth_test (by simp [hop])] at hclocks
  obtain ⟨hfirst, hlast, _⟩ := h.running.candidate hop
  have hcand : candidatesLeft s + 1 ≤ 2 ^ (s.test.m - 1) - 1 := by
    rw [candidatesLeft, if_pos hop]
    omega
  refine completes_within h hbusy ?_
  calc stepsLeft s ≤ (candidatesLeft s + 1) * 2 ^ s.test.m := by
        rw [stepsLeft, Nat.succ_mul]
        omega
    _ ≤ (2 ^ (s.test.m - 1) - 1) * 2 ^ s.test.m := Nat.mul_le_mul_right _ hcand

end Sys2Proof.Machine
end

section
/-!
The engine clock (O12 to O15, R140 to R143, R149, R150): its bits, its linearity over GF(2), and when it can be undone.
-/
namespace Sys2Proof.Machine

/-! ## The bits of one clock (R140 to R142) -/

theorem getLsbD_shiftStep_zero (x : Engine) : (shiftStep x).r.getLsbD 0 = feedback x := by
  rw [getLsbD_shiftStep]
  simp

theorem getLsbD_shiftStep_of_pos {x : Engine} {i : Nat} (hi : 1 ≤ i) (him : i < x.m) (hm : x.m ≤ 32) :
    (shiftStep x).r.getLsbD i = x.r.getLsbD (i - 1) := by
  have h32 : i < 32 := by omega
  have h0 : i ≠ 0 := by omega
  rw [getLsbD_shiftStep]
  simp [hi, him, h32, h0]

theorem getLsbD_shiftStep_of_ge {x : Engine} {i : Nat} (hm : 1 ≤ x.m) (hi : x.m ≤ i) :
    (shiftStep x).r.getLsbD i = false :=
  (toNat_lt_iff _ _).1 (shiftStep_lt x hm) i hi

/-- The feedback is the XOR of the register bits at the tap positions (R140). -/
theorem feedback_eq_foldl {x : Engine} (hm : x.m ≤ 32) (ht : x.t.toNat < 2 ^ x.m) :
    feedback x = (List.range x.m).foldl (fun b j => xor b (x.t.getLsbD j && x.r.getLsbD j)) false := by
  rw [feedback, parity_of_lt _ _ (and_lt_of_right _ _ _ ht) hm, parityBelow_eq_foldl, BitVec.and_comm]
  simp only [BitVec.getLsbD_and]

theorem feedback_of_t_zero {x : Engine} (h : x.t = 0#32) : feedback x = false := by
  rw [feedback, h, BitVec.and_zero, parity_zero]

/-- Settles O12, bit by bit. -/
theorem shiftStepMovesTheBits : Obligations.ShiftStepMovesTheBits := by
  intro x hlow hhigh ht
  have hm : x.m ≤ 32 := by omega
  exact ⟨rfl, rfl, getLsbD_shiftStep_zero x, fun i hi him => getLsbD_shiftStep_of_pos hi him hm,
    fun i hi => getLsbD_shiftStep_of_ge hlow hi, rfl, feedback_eq_foldl hm ht, feedback_of_t_zero⟩

/-- Settles O13: every clock writes a register below `2^m`, and none writes the width or the taps. -/
theorem shiftStepKeepsTheLength : Obligations.ShiftStepKeepsTheLength := by
  intro x k hm hr
  refine ⟨orbit_m x k, orbit_t x k, ?_⟩
  cases k with
  | zero => exact hr
  | succ k =>
    rw [← orbit_m x (k + 1)]
    exact shiftStep_lt (orbit x k) (by rwa [orbit_m])

/-! ## Linearity (R150) -/

section

variable (m : Nat) (t r₁ r₂ : Word)

theorem feedback_xor :
    feedback ⟨m, r₁ ^^^ r₂, t⟩ = xor (feedback ⟨m, r₁, t⟩) (feedback ⟨m, r₂, t⟩) := by
  have hand : (r₁ ^^^ r₂) &&& t = (r₁ &&& t) ^^^ (r₂ &&& t) := by
    apply BitVec.eq_of_getLsbD_eq
    intro i _
    simp only [BitVec.getLsbD_and, BitVec.getLsbD_xor, Bool.and_xor_distrib_right]
  simp only [feedback, hand, parity_xor]

theorem output_xor : output ⟨m, r₁ ^^^ r₂, t⟩ = xor (output ⟨m, r₁, t⟩) (output ⟨m, r₂, t⟩) :=
  BitVec.getLsbD_xor

theorem shiftStep_xor :
    (shiftStep ⟨m, r₁ ^^^ r₂, t⟩).r = (shiftStep ⟨m, r₁, t⟩).r ^^^ (shiftStep ⟨m, r₂, t⟩).r := by
  apply BitVec.eq_of_getLsbD_eq
  intro i _
  simp only [BitVec.getLsbD_xor, getLsbD_shiftStep, feedback_xor]
  by_cases h0 : i = 0
  · simp [h0]
  · simp [h0, Bool.and_xor_distrib_left]

end

/-- Settles O14: the shift, the mask and the parity each distribute over XOR. -/
theorem shiftStepIsLinear : Obligations.ShiftStepIsLinear := by
  refine ⟨fun m t r₁ r₂ x y z hx hy hz => ?_, fun x hr => ?_⟩
  · subst hx hy hz
    exact ⟨shiftStep_xor m t r₁ r₂, feedback_xor m t r₁ r₂, output_xor m t r₁ r₂⟩
  · exact ⟨shiftStep_of_r_zero x hr, feedback_of_r_zero x hr, output_of_r_zero x hr⟩

/-! ## Undoing a clock (R149) -/

/-- A parity of `n + 1` bits is that of the `n` low ones and the top bit. -/
theorem parity_eq_xor_top {v : Word} {n : Nat} (hn : n < 32) (hv : v.toNat < 2 ^ (n + 1)) :
    parity v = xor (parity (v &&& mask n)) (v.getLsbD n) := by
  have hlow : parityBelow (v &&& mask n) n = parityBelow v n := by
    apply parityBelow_congr
    intro i hi
    simp [hi, Nat.lt_trans hi hn]
  rw [parity_of_lt v (n + 1) hv hn, parityBelow,
    parity_of_lt _ n (and_lt_of_right v _ n (mask_lt n)) (Nat.le_of_lt hn), hlow]

section

variable {m : Nat} {t : Word}

/-- The states of width `m` (R21). -/
def statesOfWidth (m : Nat) : Set Word := {r | r.toNat < 2 ^ m}

/-- The register after one clock, as a function of the register before it. -/
def nextState (m : Nat) (t r : Word) : Word := (shiftStep ⟨m, r, t⟩).r

theorem mapsTo_nextState (hm : 1 ≤ m) :
    Set.MapsTo (nextState m t) (statesOfWidth m) (statesOfWidth m) :=
  fun r _ => shiftStep_lt ⟨m, r, t⟩ hm

/-- With tap `m-1` the top bit is rebuilt from the feedback and the bits below it. -/
theorem topBit_eq_of_topTap (hm : 1 ≤ m) (hm32 : m ≤ 32) (ht : t.toNat < 2 ^ m)
    (htop : t.getLsbD (m - 1) = true) (r : Word) :
    r.getLsbD (m - 1) =
      xor ((nextState m t r).getLsbD 0) (parity ((r &&& t) &&& mask (m - 1))) := by
  obtain ⟨n, rfl⟩ : ∃ n, m = n + 1 := ⟨m - 1, by omega⟩
  rw [nextState, getLsbD_shiftStep_zero, feedback, parity_eq_xor_top hm32 (and_lt_of_right r t _ ht)]
  rw [Nat.add_sub_cancel] at htop ⊢
  rw [BitVec.getLsbD_and, htop, Bool.and_true, Bool.xor_right_comm, Bool.xor_self, Bool.false_xor]

/-- With tap `m-1` a clock loses no state: the low bits are read off the successor, and they give the top bit. -/
theorem injOn_nextState (hm : 1 ≤ m) (hm32 : m ≤ 32) (ht : t.toNat < 2 ^ m)
    (htop : t.getLsbD (m - 1) = true) : Set.InjOn (nextState m t) (statesOfWidth m) := by
  intro q hq r hr heq
  have hlow : ∀ i, i < m - 1 → q.getLsbD i = r.getLsbD i := fun i hi => by
    have hbit := congrArg (·.getLsbD (i + 1)) heq
    simpa [nextState, getLsbD_shiftStep_of_pos (x := ⟨m, _, t⟩) (Nat.le_add_left 1 i)
      (Nat.add_lt_of_lt_sub hi) hm32] using hbit
  have hmask : (q &&& t) &&& mask (m - 1) = (r &&& t) &&& mask (m - 1) := by
    apply BitVec.eq_of_getLsbD_eq
    intro i _
    by_cases hi : i < m - 1
    · simp [hi, hlow i hi]
    · simp [hi]
  apply BitVec.eq_of_getLsbD_eq
  intro i _
  rcases Nat.lt_trichotomy i (m - 1) with hi | rfl | hi
  · exact hlow i hi
  · rw [topBit_eq_of_topTap hm hm32 ht htop q, topBit_eq_of_topTap hm hm32 ht htop r, heq, hmask]
  · rw [(toNat_lt_iff q m).1 hq i (by omega), (toNat_lt_iff r m).1 hr i (by omega)]

theorem bijOn_nextState (hm : 1 ≤ m) (hm32 : m ≤ 32) (ht : t.toNat < 2 ^ m)
    (htop : t.getLsbD (m - 1) = true) :
    Set.BijOn (nextState m t) (statesOfWidth m) (statesOfWidth m) :=
  ((Set.toFinite _).injOn_iff_bijOn_of_mapsTo (mapsTo_nextState hm)).1
    (injOn_nextState hm hm32 ht htop)

/-- Without tap `m-1` the top bit alone, shifted out, leaves nothing. -/
theorem nextState_topBit (hm32 : m ≤ 32) (htop : t.getLsbD (m - 1) = false) :
    nextState m t (BitVec.ofNat 32 (2 ^ (m - 1))) = 0#32 := by
  have hbit := fun j => getLsbD_twoPow (m - 1) j (by omega)
  have hmask : BitVec.ofNat 32 (2 ^ (m - 1)) &&& t = 0#32 := by
    apply BitVec.eq_of_getLsbD_eq
    intro i _
    rw [BitVec.getLsbD_and, hbit, BitVec.getLsbD_zero]
    by_cases hi : i = m - 1 <;> simp [hi, htop]
  apply BitVec.eq_of_getLsbD_eq
  intro i _
  rw [nextState, getLsbD_shiftStep, feedback, hmask, parity_zero, hbit, BitVec.getLsbD_zero]
  simp
  omega

/-- Without tap `m-1` the states that differ in the top bit alone share a successor. -/
theorem shiftStep_xor_topBit (hm32 : m ≤ 32) (htop : t.getLsbD (m - 1) = false) (r : Word) :
    shiftStep ⟨m, r ^^^ BitVec.ofNat 32 (2 ^ (m - 1)), t⟩ = shiftStep ⟨m, r, t⟩ := by
  have hr : nextState m t (r ^^^ BitVec.ofNat 32 (2 ^ (m - 1))) = nextState m t r :=
    calc _ = nextState m t r ^^^ nextState m t (BitVec.ofNat 32 (2 ^ (m - 1))) := shiftStep_xor ..
      _ = nextState m t r := by rw [nextState_topBit hm32 htop, BitVec.xor_zero]
  exact congrArg (Engine.mk m · t) hr

theorem xor_topBit_ne (hm32 : m ≤ 32) (r : Word) :
    r ^^^ BitVec.ofNat 32 (2 ^ (m - 1)) ≠ r := by
  intro h
  have hbit := congrArg (·.getLsbD (m - 1)) h
  simp only [BitVec.getLsbD_xor, getLsbD_twoPow _ _ (show m - 1 < 32 by omega)] at hbit
  simp at hbit

end

/-- Settles O15: with tap `m-1` the clock is injective on finitely many states, so a bijection; without it, it is linear
with the top bit in its kernel. -/
theorem shiftStepInvertibleIffTopTap : Obligations.ShiftStepInvertibleIffTopTap := by
  intro m t hlow hhigh ht
  have hm : 1 ≤ m := by omega
  have hm32 : m ≤ 32 := by omega
  refine ⟨fun htop => ⟨fun r' hr' => ?_, fun r r' hr heq => ?_⟩, fun htop r _ => ?_⟩
  · obtain ⟨_, hinj, hsurj⟩ := bijOn_nextState hm hm32 ht htop
    obtain ⟨r, hr, heq⟩ := hsurj hr'
    exact ⟨r, hr, heq, fun q hq hq' => hinj hq hr (hq'.trans heq.symm)⟩
  · subst heq
    refine ⟨fun i hi him => ?_, topBit_eq_of_topTap hm hm32 ht htop r⟩
    exact (getLsbD_shiftStep_of_pos (x := ⟨m, r, t⟩) hi (Nat.lt_of_le_pred hm him) hm32).symm
  · exact ⟨shiftStep_xor_topBit hm32 htop r, xor_topBit_ne hm32 r⟩

end Sys2Proof.Machine
end

section
/-!
The commands on the live engine (O16, O17, R145, R146), and who else writes or reads it (O18, R151).
-/
namespace Sys2Proof.Machine

/-! ## LOAD and SHIFT (R145, R146) -/

/-- The check of LOAD, on numbers and bits (R130, R145). -/
theorem loadOperandsValid_iff (s : State) :
    loadOperandsValid s = true ↔ 2 ≤ s.conf.width.toNat ∧ s.conf.width.toNat ≤ s.mmax ∧
      (∀ i, s.conf.width.toNat ≤ i → s.conf.seed.getLsbD i = false) ∧
      (∀ i, s.conf.width.toNat ≤ i → s.conf.taps.getLsbD i = false) := by
  simp only [loadOperandsValid, Bool.and_eq_true, validWidth_iff, validMask_iff, toNat_lt_iff,
    widthOperand, and_assoc]

theorem loadRule_valid {s : State} (h : loadOperandsValid s = true) :
    loadRule s = complete .ok { s with
      live := { m := s.conf.width.toNat, r := s.conf.seed, t := s.conf.taps }
      loaded := true, lastOut := false, lastFb := false } := by
  obtain ⟨_, _, hseed, htaps⟩ := (loadOperandsValid_iff s).1 h
  rw [loadRule, if_pos h, widthOperand, lowBits_of_lt _ _ ((toNat_lt_iff _ _).2 hseed),
    lowBits_of_lt _ _ ((toNat_lt_iff _ _).2 htaps)]

theorem loadRule_invalid {s : State} (h : loadOperandsValid s ≠ true) :
    loadRule s = complete .invalidConfig s := by
  rw [loadRule, if_neg h]

/-- Settles O16: acceptance changes no operand, and an operand that passes its check is taken whole. -/
theorem loadBuildsTheLiveEngine : Obligations.LoadBuildsTheLiveEngine := by
  refine ⟨decode_encode .load, fun s hop => ?_⟩
  rw [← loadOperandsValid_iff s, exec_idle .load s hop, ruleOf]
  refine ⟨fun hvalid => ?_, fun hinvalid => ?_⟩
  · rw [loadRule_valid (s := accept s) hvalid, complete, accept, ← hop]
  · rw [loadRule_invalid (s := accept s) hinvalid, complete_accept_of_idle hop]

/-- Settles O17: SHIFT's rule by LOADED, on the cleared status. -/
theorem shiftClocksTheLiveEngine : Obligations.ShiftClocksTheLiveEngine := by
  refine ⟨decode_encode .shift, fun s => ⟨fun hop hloaded => ?_, fun hop hloaded => ?_, fun hop => ?_⟩⟩
  · rw [exec_idle .shift s hop, ruleOf, shiftRule, accept_loaded, if_pos hloaded, complete, ← hop]
    rfl
  · rw [exec_idle .shift s hop, ruleOf, shiftRule, accept_loaded, if_neg (by simp [hloaded]),
      complete_accept_of_idle hop]
  · exact exec_busy .shift s hop nofun

/-! ## Who writes the live engine (R151) -/

theorem ruleOf_live {i : Instr} (s : State) (hload : i ≠ .load) (hshift : i ≠ .shift) :
    (ruleOf i s).live = s.live := by
  cases i with
  | nop => rfl
  | load => exact absurd rfl hload
  | shift => exact absurd rfl hshift
  | check =>
    rw [ruleOf, checkRule]
    split <;> rfl
  | search =>
    rw [ruleOf, searchRule]
    split <;> rfl
  | genks =>
    rw [ruleOf, genksRule]
    split <;> rfl
  | cancel => rfl

/-- A command changes the live engine only as an accepted LOAD or SHIFT. -/
theorem exec_live {i : Instr} {s t : State} (e : exec i s = .next t) (hne : t.live ≠ s.live) :
    s.op = .idle ∧ (i = .load ∨ i = .shift) := by
  by_cases hop : s.op = .idle
  · rw [exec_idle i s hop] at e
    cases e
    refine ⟨hop, or_iff_not_imp_left.2 fun hload => ?_⟩
    by_contra hshift
    exact hne (ruleOf_live (accept s) hload hshift)
  · by_cases hi : i = .cancel
    · subst hi
      rw [exec_cancel_busy s hop] at e
      cases e
      exact absurd rfl hne
    · rw [exec_busy i s hop hi] at e
      cases e
      exact absurd rfl hne

theorem illegalCommand_live {s t : State} (e : illegalCommand s = .next t) : t.live = s.live := by
  by_cases hop : s.op = .idle
  · rw [illegalCommand_idle s hop] at e
    cases e
    rfl
  · rw [illegalCommand_busy s hop] at e
    cases e
    rfl

/-- A busy step changes the live engine only while GENKS runs. -/
theorem busyStep_live {s : State} (hop : s.op ≠ .genks) : (busyStep s).live = s.live := by
  obtain ⟨_, _, _, _, _, hframe, _⟩ := busyStep_frame s
  exact (hframe hop).1

theorem waitStep_live {s : State} (hop : s.op ≠ .genks) : (waitStep s).live = s.live := by
  rw [waitStep]
  split
  · exact busyStep_live hop
  · rfl

theorem step_live {s t : State} (hstep : step s = .next t) (hne : t.live ≠ s.live) :
    (s.op = .idle ∧ ∃ w rest, s.events = wr .CMD w :: rest ∧
      (decode w = .command .load ∨ decode w = .command .shift)) ∨
    s.op = .genks ∨ s.events.head? = some .reset := by
  by_cases hop : s.op = .genks
  · exact .inr (.inl hop)
  rcases step_cases s t hstep with ⟨_, rfl⟩ | ⟨_, _, rfl⟩ | ⟨_, _, rfl⟩ | ⟨_, he, rfl⟩ |
    ⟨_, _, _, rfl⟩ | ⟨_, _, _, _, _, rfl⟩ | ⟨w, i, rest, he, hd, e⟩ | ⟨_, _, _, _, _, e⟩
  · exact absurd (busyStep_live hop) hne
  · exact absurd (busyStep_live (s := popEvent s) hop) hne
  · exact absurd (waitStep_live hop) hne
  · exact .inr (.inr (by rw [he, List.head?_cons]))
  · exact absurd rfl hne
  · rw [hostWrite_eq] at hne
    exact absurd rfl hne
  · obtain ⟨hidle, hi⟩ := exec_live e hne
    refine .inl ⟨hidle, w, rest, he, ?_⟩
    rcases hi with rfl | rfl
    · exact .inl hd
    · exact .inr hd
  · exact absurd (illegalCommand_live e) hne

/-! ## CHECK and SEARCH do not read the live engine (R151) -/

section

variable (s : State) (x : Engine)

theorem endCandidate_setLive : endCandidate { s with live := x } = { endCandidate s with live := x } := by
  rw [endCandidate, endCandidate]
  split
  · rfl
  · split <;> rfl

theorem checkBusyStep_setLive :
    checkBusyStep { s with live := x } = { checkBusyStep s with live := x } := by
  rw [checkBusyStep_eq, checkBusyStep_eq]
  split
  · rfl
  · split <;> rfl

theorem searchBusyStep_setLive :
    searchBusyStep { s with live := x } = { searchBusyStep s with live := x } := by
  rw [searchBusyStep_eq, searchBusyStep_eq]
  split
  · exact endCandidate_setLive s x
  · split
    · exact endCandidate_setLive (repeatedState .test s) x
    · rfl

theorem busyStep_setLive {s : State} (hop : s.op = .check ∨ s.op = .search) :
    busyStep { s with live := x } = { busyStep s with live := x } := by
  rcases hop with hop | hop
  · rw [busyStep_check s hop, busyStep_check { s with live := x } hop, checkBusyStep_setLive]
  · rw [busyStep_search s hop, busyStep_search { s with live := x } hop, searchBusyStep_setLive]

theorem checkRule_setLive : checkRule { s with live := x } = { checkRule s with live := x } := by
  have hvalid : checkOperandsValid { s with live := x } = checkOperandsValid s := rfl
  rw [checkRule, checkRule, hvalid]
  split <;> rfl

theorem searchRule_setLive : searchRule { s with live := x } = { searchRule s with live := x } := by
  have hvalid : validWidth { s with live := x } = validWidth s := rfl
  rw [searchRule, searchRule, hvalid]
  split <;> rfl

/-- CHECK and SEARCH do the same whatever the live engine is, accepted or rejected. -/
theorem exec_setLive {i : Instr} (hi : i = .check ∨ i = .search) :
    ∃ t, exec i s = .next t ∧ exec i { s with live := x } = .next { t with live := x } := by
  have hrule : ruleOf i (accept { s with live := x }) = { ruleOf i (accept s) with live := x } := by
    rcases hi with rfl | rfl
    · exact checkRule_setLive (accept s) x
    · exact searchRule_setLive (accept s) x
  have hcancel : i ≠ .cancel := by rcases hi with rfl | rfl <;> decide
  by_cases hop : s.op = .idle
  · exact ⟨_, exec_idle i s hop, hrule ▸ exec_idle i { s with live := x } hop⟩
  · exact ⟨_, exec_busy i s hop hcancel, exec_busy i { s with live := x } hop hcancel⟩

end

/-- Settles O18: the writers by the kinds of a step, the non-readers by replacing E. -/
theorem liveEngineHasThreeWriters : Obligations.LiveEngineHasThreeWriters :=
  ⟨fun _ _ => step_live, fun _ x hop => busyStep_setLive x hop, fun _ s x hi => exec_setLive s x hi⟩

end Sys2Proof.Machine
end

section
/-!
The period of an engine (O24, O26, R169 to R172): how many of its states can differ, with and without tap `m-1`, by
counting states as numbers.
-/
namespace Sys2Proof.Machine

/-! ## A trajectory as a sequence of words -/

section

variable {x : Engine}

theorem orbitState_succ (x : Engine) (k : Nat) :
    orbitState x (k + 1) = nextState x.m x.t (orbitState x k) := by
  have heq : orbit x k = ⟨x.m, orbitState x k, x.t⟩ := by
    rw [← orbit_m x k, ← orbit_t x k]
    rfl
  rw [nextState, ← heq]
  rfl

theorem orbitState_lt (hr : x.r.toNat < 2 ^ x.m) (ht : x.t.toNat < 2 ^ x.m) (k : Nat) :
    (orbitState x k).toNat < 2 ^ x.m := by
  have hok := (orbit_ok x.m x ⟨Nat.le_refl _, hr, ht⟩ k).state
  rwa [orbit_m] at hok

/-- The first `c` states differ iff their numbers do. -/
theorem distinctUpTo_iff_injOn (x : Engine) (c : Nat) :
    DistinctUpTo x c ↔ Set.InjOn (fun k => (orbitState x k).toNat) (Finset.range c) := by
  simp only [Finset.coe_range]
  constructor
  · intro hd i hi j hj heq
    have heq' := BitVec.eq_of_toNat_eq heq
    rcases Nat.lt_trichotomy i j with hij | hij | hij
    · exact absurd heq' (hd i j hij hj)
    · exact hij
    · exact absurd heq'.symm (hd j i hij hi)
  · intro hinj i j hij hj heq
    exact Nat.ne_of_lt hij (hinj (Nat.lt_trans hij hj) hj (congrArg BitVec.toNat heq))

/-! ## With tap `m-1` (R169) -/

/-- With tap `m-1` only the zero state leads to the zero state (R149, R150). -/
theorem nextState_ne_zero {m : Nat} {t r : Word} (hm : 1 ≤ m) (hm32 : m ≤ 32) (ht : t.toNat < 2 ^ m)
    (htop : t.getLsbD (m - 1) = true) (hr : r.toNat < 2 ^ m) (hne : r ≠ 0#32) :
    nextState m t r ≠ 0#32 := by
  have hzero : nextState m t 0#32 = 0#32 := by rw [nextState, shiftStep_of_r_zero _ rfl]
  have hmem : (0#32 : Word) ∈ statesOfWidth m := Nat.two_pow_pos m
  exact fun heq => hne (injOn_nextState hm hm32 ht htop hr hmem (heq.trans hzero.symm))

theorem orbitState_ne_zero (hm : 1 ≤ x.m) (hm32 : x.m ≤ 32) (hr : x.r.toNat < 2 ^ x.m)
    (ht : x.t.toNat < 2 ^ x.m) (htop : x.t.getLsbD (x.m - 1) = true) (hne : x.r ≠ 0#32) (k : Nat) :
    orbitState x k ≠ 0#32 := by
  induction k with
  | zero => exact hne
  | succ k ih =>
    rw [orbitState_succ]
    exact nextState_ne_zero hm hm32 ht htop (orbitState_lt hr ht k) ih

/-- With tap `m-1` a trajectory from a nonzero state runs through the nonzero states. -/
theorem mapsTo_orbitState_of_topTap (hm : 1 ≤ x.m) (hm32 : x.m ≤ 32) (hr : x.r.toNat < 2 ^ x.m)
    (ht : x.t.toNat < 2 ^ x.m) (htop : x.t.getLsbD (x.m - 1) = true) (hne : x.r ≠ 0#32) (c : Nat) :
    Set.MapsTo (fun k => (orbitState x k).toNat) (Finset.range c) (Finset.Ico 1 (2 ^ x.m)) := by
  intro k _
  have hk := orbitState_ne_zero hm hm32 hr ht htop hne k
  refine Finset.mem_coe.2 (Finset.mem_Ico.2 ⟨?_, orbitState_lt hr ht k⟩)
  exact Nat.pos_of_ne_zero fun h0 => hk (BitVec.eq_of_toNat_eq h0)

theorem distinct_le_of_topTap {c : Nat} (hm : 1 ≤ x.m) (hm32 : x.m ≤ 32) (hr : x.r.toNat < 2 ^ x.m)
    (ht : x.t.toNat < 2 ^ x.m) (htop : x.t.getLsbD (x.m - 1) = true) (hd : DistinctUpTo x c) :
    c ≤ 2 ^ x.m - 1 := by
  by_cases hne : x.r = 0#32
  · have hpow : 2 ^ 1 ≤ 2 ^ x.m := two_pow_le_of_le hm
    have hfixed : orbitState x 0 = orbitState x 1 := (congrArg Engine.r (shiftStep_of_r_zero x hne)).symm
    have hc : ¬ 1 < c := fun hc => hd 0 1 Nat.one_pos hc hfixed
    omega
  · have hcard := Finset.card_le_card_of_injOn _
      (mapsTo_orbitState_of_topTap hm hm32 hr ht htop hne c) ((distinctUpTo_iff_injOn x c).1 hd)
    simpa using hcard

/-! ## Without tap `m-1` (R170) -/

/-- Without tap `m-1` a clock reads only the bits below `m-1`. -/
theorem nextState_congr_of_lowBits {m : Nat} {t q r : Word} (ht : t.toNat < 2 ^ (m - 1))
    (h : lowBits q (m - 1) = lowBits r (m - 1)) : nextState m t q = nextState m t r := by
  have hand : ∀ v, v &&& t = lowBits v (m - 1) &&& t := fun v => by
    conv_lhs => rw [← lowBits_of_lt t (m - 1) ht]
    rw [lowBits, lowBits, BitVec.and_comm t, BitVec.and_assoc]
  have hfb : feedback ⟨m, q, t⟩ = feedback ⟨m, r, t⟩ := by
    rw [feedback, feedback, hand q, h, ← hand r]
  have hbit : ∀ i, i < 32 → i < m - 1 → q.getLsbD i = r.getLsbD i := fun i hi32 hi => by
    have hlow := congrArg (·.getLsbD i) h
    simpa only [lowBits, BitVec.getLsbD_and, getLsbD_mask, hi32, hi, decide_true, Bool.and_true] using hlow
  apply BitVec.eq_of_getLsbD_eq
  intro i hi32
  rw [nextState, nextState, getLsbD_shiftStep, getLsbD_shiftStep, hfb]
  by_cases hi : 1 ≤ i ∧ i < m
  · rw [hbit (i - 1) (by omega) (by omega)]
  · have hout : (decide (1 ≤ i) && decide (i < m)) = false := by simpa using hi
    simp [Bool.and_assoc, hout]

theorem lt_of_not_topTap {m : Nat} {t : Word} (ht : t.toNat < 2 ^ m) (htop : t.getLsbD (m - 1) = false) :
    t.toNat < 2 ^ (m - 1) := by
  rw [toNat_lt_iff] at ht ⊢
  intro i hi
  rcases Nat.eq_or_lt_of_le hi with rfl | hlt
  · exact htop
  · exact ht i (by omega)

/-- Without tap `m-1` only the seed and `2^(m-1)` successors can differ. -/
theorem distinct_le_of_not_topTap {c : Nat} (ht : x.t.toNat < 2 ^ x.m)
    (htop : x.t.getLsbD (x.m - 1) = false) (hd : DistinctUpTo x c) : c ≤ 2 ^ (x.m - 1) + 1 := by
  have hinj := (distinctUpTo_iff_injOn x c).1 hd
  have hmaps : Set.MapsTo (fun k => (lowBits (orbitState x k) (x.m - 1)).toNat)
      (Finset.range (c - 1)) (Finset.range (2 ^ (x.m - 1))) := fun k _ =>
    Finset.mem_coe.2 (Finset.mem_range.2 (lowBits_lt _ _))
  have hcard := Finset.card_le_card_of_injOn _ hmaps fun i hi j hj heq => by
    have hi' : i < c - 1 := Finset.mem_range.1 hi
    have hj' : j < c - 1 := Finset.mem_range.1 hj
    have hnext : orbitState x (i + 1) = orbitState x (j + 1) := by
      rw [orbitState_succ, orbitState_succ]
      exact nextState_congr_of_lowBits (lt_of_not_topTap ht htop) (BitVec.eq_of_toNat_eq heq)
    have hsucc : i + 1 = j + 1 := hinj (Finset.mem_range.2 (by omega)) (Finset.mem_range.2 (by omega))
      (congrArg BitVec.toNat hnext)
    omega
  rw [Finset.card_range, Finset.card_range] at hcard
  omega

/-! ## The period bound (R172) -/

/-- At most `2^m - 1` states of a trajectory differ, for every tap set and seed of a legal width. -/
theorem distinct_le {c : Nat} (hm : 2 ≤ x.m) (hm32 : x.m ≤ 32) (hr : x.r.toNat < 2 ^ x.m)
    (ht : x.t.toNat < 2 ^ x.m) (hd : DistinctUpTo x c) : c ≤ 2 ^ x.m - 1 := by
  cases htop : x.t.getLsbD (x.m - 1) with
  | true => exact distinct_le_of_topTap (by omega) hm32 hr ht htop hd
  | false =>
    have hle := distinct_le_of_not_topTap ht htop hd
    have hhalf : 2 ^ (x.m - 1) * 2 = 2 ^ x.m := Nat.two_pow_pred_mul_two (by omega)
    have hpow : 2 ^ 1 ≤ 2 ^ (x.m - 1) := two_pow_le_of_le (by omega)
    omega

end

/-- Settles O26: `2^m` states cannot all differ. -/
theorem periodIsBounded : Obligations.PeriodIsBounded := by
  intro x hm hhigh hr ht
  by_contra hno
  have hpos := Nat.two_pow_pos x.m
  have hd : DistinctUpTo x (2 ^ x.m) := fun i j hij hj heq => hno ⟨i, j, hij, by omega, heq⟩
  have hle := distinct_le hm (by omega) hr ht hd
  omega

/-! ## Maximal length (R169 to R171) -/

section

variable {m : Nat} {taps : Word}

theorem testEngine_ne_zero (hm : 1 ≤ m) (hm32 : m ≤ 32) : (testEngine m taps).r ≠ 0#32 := by
  have hpow : 2 ^ 1 ≤ 2 ^ m := two_pow_le_of_le hm
  have hmask := toNat_mask m hm32
  intro h0
  rw [show mask m = 0#32 from h0, BitVec.toNat_zero] at hmask
  omega

/-- From three bits on, the distinct states without tap `m-1` are too few for a pass (R170). -/
theorem not_passes_of_not_topTap (hm : 3 ≤ m) (ht : taps.toNat < 2 ^ m)
    (htop : taps.getLsbD (m - 1) = false) : ¬ Passes m taps := by
  intro hpass
  have hle : 2 ^ m - 1 ≤ 2 ^ (m - 1) + 1 :=
    distinct_le_of_not_topTap (x := testEngine m taps) ht htop hpass
  have hhalf : 2 ^ (m - 1) * 2 = 2 ^ m := Nat.two_pow_pred_mul_two (by omega)
  have hpow : 2 ^ 2 ≤ 2 ^ (m - 1) := two_pow_le_of_le (by omega)
  omega

/-- The register visits every nonzero state within `2^m - 1` states (R169). -/
def VisitsAll (m : Nat) (taps : Word) : Prop :=
  ∀ v : Word, v ≠ 0#32 → v.toNat < 2 ^ m → ∃ k, k < 2 ^ m - 1 ∧ orbitState (testEngine m taps) k = v

theorem visitsAll_iff_surjOn (hm32 : m ≤ 32) :
    VisitsAll m taps ↔ Set.SurjOn (fun k => (orbitState (testEngine m taps) k).toNat)
      (Finset.range (2 ^ m - 1)) (Finset.Ico 1 (2 ^ m)) := by
  have hpow : 2 ^ m ≤ 2 ^ 32 := two_pow_le_of_le hm32
  constructor
  · intro hall n hn
    obtain ⟨hpos, hlt⟩ := Finset.mem_Ico.1 (Finset.mem_coe.1 hn)
    have hval : (BitVec.ofNat 32 n).toNat = n := by
      rw [BitVec.toNat_ofNat, Nat.mod_eq_of_lt (by omega)]
    obtain ⟨k, hk, heq⟩ := hall (BitVec.ofNat 32 n)
      (fun h0 => by rw [h0, BitVec.toNat_zero] at hval; omega) (by rwa [hval])
    exact ⟨k, Finset.mem_coe.2 (Finset.mem_range.2 hk), (congrArg BitVec.toNat heq).trans hval⟩
  · intro hsurj v hv hlt
    have hpos : 1 ≤ v.toNat := Nat.pos_of_ne_zero fun h0 => hv (BitVec.eq_of_toNat_eq h0)
    obtain ⟨k, hk, heq⟩ := hsurj (Finset.mem_coe.2 (Finset.mem_Ico.2 ⟨hpos, hlt⟩))
    exact ⟨k, Finset.mem_range.1 (Finset.mem_coe.1 hk), BitVec.eq_of_toNat_eq heq⟩

/-- There are as many clocks as nonzero states, so visiting all of them and never repeating are the same. -/
theorem passes_iff_visitsAll (hm : 3 ≤ m) (hm32 : m ≤ 32) (ht : taps.toNat < 2 ^ m) :
    Passes m taps ↔ VisitsAll m taps := by
  have hcard : (Finset.range (2 ^ m - 1)).card = (Finset.Ico 1 (2 ^ m)).card := by simp
  rw [visitsAll_iff_surjOn hm32]
  constructor
  · intro hpass
    have htop : taps.getLsbD (m - 1) = true := by
      by_contra hno
      exact not_passes_of_not_topTap hm ht (Bool.eq_false_iff.2 hno) hpass
    have hm1 : 1 ≤ m := by omega
    exact Finset.surjOn_of_injOn_of_card_le _
      (mapsTo_orbitState_of_topTap (x := testEngine m taps) hm1 hm32 (mask_lt m) ht htop
        (testEngine_ne_zero hm1 hm32) _)
      ((distinctUpTo_iff_injOn _ _).1 hpass) hcard.ge
  · intro hsurj
    refine (distinctUpTo_iff_injOn _ _).2 (Finset.injOn_of_card_image_eq ?_)
    refine Nat.le_antisymm Finset.card_image_le ?_
    exact hcard.le.trans (Finset.card_le_card (Finset.surjOn_iff_subset_image.1 hsurj))

end

/-- Settles O24: a pass forces tap `m-1`, and then the trajectory keeps to the nonzero states, which it fills. -/
theorem passesIffMaximalLength : Obligations.PassesIffMaximalLength := fun _ _ hm hhigh ht =>
  ⟨passes_iff_visitsAll hm (by omega) ht, not_passes_of_not_topTap hm ht⟩

end Sys2Proof.Machine
end

section
/-!
The detector (O19, O20, R161, R162), and CHECK from its acceptance to its verdict (O21 to O23, O25, R164 to R168, R173).
-/
namespace Sys2Proof.Machine

/-! ## The detector (R161, R162) -/

/-- Settles O19: the table is the empty store, and the cap is a mask of at most 30 bits, so it does not wrap. -/
theorem detectorStartsEmpty : Obligations.DetectorStartsEmpty :=
  fun m _ hm => ⟨Memory.read_nil, toNat_mask m (by omega), rfl⟩

/-- A clock replaces the bound engine and the detector, and nothing else. -/
theorem clockedState_frame (b : Bound) (s : State) :
    clockedState b s = { s with
      live := (clockedState b s).live, test := (clockedState b s).test
      det := s.det.record (engineOf b s).r } := by
  cases b <;> rfl

theorem engineOf_clockedState (b : Bound) (s : State) :
    engineOf b (clockedState b s) = shiftStep (engineOf b s) := by
  cases b <;> rfl

theorem engineOf_clockedState_of_ne {b c : Bound} (s : State) (h : c ≠ b) :
    engineOf c (clockedState b s) = engineOf c s := by
  rw [← engineOf_setEngine_of_ne s b c (shiftStep (engineOf b s)) h]
  cases c <;> rfl

/-- Settles O20: the three ends of an iteration, with the table's entries after a clock read index by index. -/
theorem detectorChecksThenClocks : Obligations.DetectorChecksThenClocks := by
  refine fun b s => ⟨detIter_cap b s, fun hne hseen => ?_, fun hne hnew => ?_⟩
  · exact detIter_repeated b s hne ((hasSeen_iff _ _).2 hseen)
  · refine ⟨clockedState b s, detIter_clocked b s hne ((hasSeen_eq_false_iff _ _).2 hnew),
      engineOf_clockedState b s, fun c => engineOf_clockedState_of_ne s,
      read_record_seenValid s.det _, read_record_seenIdx s.det _, clockedState_frame b s⟩

/-! ## CHECK at acceptance (R165) -/

/-- The check of CHECK, on numbers (R130, R165). -/
theorem checkOperandsValid_iff (s : State) :
    checkOperandsValid s = true ↔ 2 ≤ s.conf.width.toNat ∧ s.conf.width.toNat ≤ s.mmax ∧
      s.conf.taps.toNat < 2 ^ s.conf.width.toNat := by
  simp only [checkOperandsValid, Bool.and_eq_true, validWidth_iff, validMask_iff, widthOperand, and_assoc]

/-- The block after a CHECK with valid operands is accepted (R165): the test engine is on all-ones. -/
def checkStarted (s : State) : State :=
  { s with
    primitive := false
    test := testEngine s.conf.width.toNat s.conf.taps
    det := detStart s.conf.width.toNat s.det
    op := .check, doneBit := false, err := .ok, rejected := false }

theorem exec_check_valid {s : State} (hop : s.op = .idle) (h : checkOperandsValid s = true) :
    exec .check s = .next (checkStarted s) := by
  obtain ⟨_, _, htaps⟩ := (checkOperandsValid_iff s).1 h
  have hvalid : checkOperandsValid (accept s) = true := h
  rw [exec_idle .check s hop, ruleOf, checkRule, if_pos hvalid, checkStarted, testEngine,
    ← lowBits_of_lt _ _ htaps]
  rfl

theorem exec_check_invalid {s : State} (hop : s.op = .idle) (h : checkOperandsValid s ≠ true) :
    exec .check s = .next { s with doneBit := true, err := .invalidConfig, rejected := false } := by
  have hinvalid : checkOperandsValid (accept s) ≠ true := h
  rw [exec_idle .check s hop, ruleOf, checkRule, if_neg hinvalid, complete_accept_of_idle hop]

/-- Settles O21: an accepted tap mask is taken whole, and the seed is the mask of a width of at most 30. -/
theorem checkStartsTheTest : Obligations.CheckStartsTheTest := by
  refine ⟨decode_encode .check, fun s hop hmax => ?_⟩
  rw [← toNat_lt_iff, ← checkOperandsValid_iff s]
  refine ⟨fun hvalid => ⟨_, exec_check_valid hop hvalid, fun i => ?_, rfl⟩, exec_check_invalid hop⟩
  obtain ⟨_, hwidth, _⟩ := (checkOperandsValid_iff s).1 hvalid
  change (mask s.conf.width.toNat).getLsbD i = _
  have h32 : i < s.conf.width.toNat → i < 32 := by omega
  rw [getLsbD_mask]
  simpa using h32

/-! ## A CHECK busy step (R166, R167) -/

/-- Settles O22: the busy step by the result of its iteration; a busy step of CHECK leaves the rest alone. -/
theorem checkBusyStepTests : Obligations.CheckBusyStepTests := by
  intro s t res hop hiter
  have hstep : busyStep s = checkBusyStep s := busyStep_check s hop
  have hngenks : s.op ≠ .genks := by simp [hop]
  obtain ⟨_, _, _, _, _, hframe, _⟩ := busyStep_frame s
  obtain ⟨_, hout, hfb, hks, htraced⟩ := hframe hngenks
  refine ⟨fun k st fb out hres => ?_, fun hres => ?_, htraced, hout, hfb, fun a => by rw [hks]⟩
  · rw [hstep, checkBusyStep, hiter, hres]
  · rcases hres with rfl | rfl <;> rw [hstep, checkBusyStep, hiter] <;> rfl

/-! ## The end of a run on the test engine (R164, R167, R173) -/

/-- The detector of a run that started on engine `x` and has stopped with CYCLE = `c` (R164). -/
structure RunEnded (x : Engine) (c : Nat) (d : Detector) : Prop where
  cycle : d.cycle.toNat = c
  cap : d.ncap.toNat = 2 ^ x.m - 1
  count : d.seenCount = d.cycle
  repeated : d.repeated = true ↔ c ≠ 2 ^ x.m - 1
  first : ∀ j, j < c → c ≠ 2 ^ x.m - 1 → orbitState x c = orbitState x j → d.repeatFirst.toNat = j

/-- The detector after the iteration that stops a run: as it stands at the cap, else stopped on the register. -/
def Detector.ended (d : Detector) (r : Word) : Detector := if d.cycle = d.ncap then d else d.stopOn r

theorem runEnded_ended {x : Engine} {c : Nat} {d : Detector} (h : TableAt x c d) :
    RunEnded x c (d.ended (orbitState x c)) := by
  have hcap := cycle_eq_ncap_iff x c d h
  rw [Detector.ended]
  split
  case isTrue heq =>
    exact ⟨h.cycle, h.cap, h.count, by simp [h.norepeat, hcap.1 heq],
      fun _ _ hne => absurd (hcap.1 heq) hne⟩
  case isFalse hne =>
    refine ⟨h.cycle, h.cap, h.count, by simp [Detector.stopOn, mt hcap.2 hne], fun j hj _ he => ?_⟩
    rw [Detector.stopOn, he]
    exact h.index j hj

/-- The pass condition tells whether the run reached the cap (R167). -/
theorem RunEnded.passCondition_iff {x : Engine} {c : Nat} {d : Detector} (h : RunEnded x c d) :
    passCondition d = true ↔ c = 2 ^ x.m - 1 := by
  have hcount : d.seenCount = d.ncap ↔ c = 2 ^ x.m - 1 := by
    rw [h.count, ← BitVec.toNat_inj, h.cycle, h.cap]
  have hrepeat : d.repeated = false ↔ c = 2 ^ x.m - 1 := by
    rw [← Bool.not_eq_true, h.repeated, not_not]
  rw [Machine.passCondition_iff, hcount, hrepeat, and_self]

/-- At the clock where the run stops, CHECK ends (R166). -/
theorem checkBusyStep_of_stopsAt {x : Engine} {c : Nat} {t u : State} (h : TestRun x c t u)
    (hstop : StopsAt x c) :
    checkBusyStep u = finishCheck { u with det := u.det.ended (orbitState x c) } := by
  have hr : u.test.r = orbitState x c := by rw [h.engine, orbitState]
  rw [checkBusyStep_eq, Detector.ended, hr]
  by_cases heq : u.det.cycle = u.det.ncap
  · rw [if_pos heq, if_pos heq]
  · rw [if_neg heq, if_neg heq, if_pos (seen_of_stopsAt x c u.det h.table hstop heq), repeatedState,
      engineOf_test, hr]

/-! ## A whole CHECK (R164 to R168, R173) -/

/-- The block after a CHECK, accepted in `s`, whose run stopped with CYCLE = `c` and left the detector `d`. -/
def checkEnded (s : State) (c : Nat) (d : Detector) : State :=
  { checkStarted s with
    primitive := passCondition d
    test := orbit (testEngine s.conf.width.toNat s.conf.taps) c
    det := d, op := .idle, doneBit := true, err := .ok }

theorem testRun_checkStarted {s : State} {c : Nat} (hm : s.conf.width.toNat ≤ 30)
    (hstop : StopsAt (testEngine s.conf.width.toNat s.conf.taps) c) {n : Nat} (hn : n ≤ c) :
    TestRun (testEngine s.conf.width.toNat s.conf.taps) n (checkStarted s)
      (busySteps n (checkStarted s)) :=
  have hstart : TestRun (testEngine s.conf.width.toNat s.conf.taps) 0 (checkStarted s) (checkStarted s) :=
    ⟨rfl, tableAt_start (testEngine s.conf.width.toNat s.conf.taps) s.det hm, rfl⟩
  testRun_busySteps _ c _ hm hstart (.inl rfl) hstop.distinct hstop.below n hn

/-- Every step of a CHECK up to the one that ends it is a clock (R173). -/
theorem busySteps_checkStarted_op {s : State} {c : Nat} (hm : s.conf.width.toNat ≤ 30)
    (hstop : StopsAt (testEngine s.conf.width.toNat s.conf.taps) c) {n : Nat} (hn : n ≤ c) :
    (busySteps n (checkStarted s)).op = .check := by
  rw [(testRun_checkStarted hm hstop hn).frame]
  rfl

/-- The state that a CHECK ends in, `c + 1` busy steps after acceptance (R164, R166, R173). -/
theorem busySteps_checkStarted_end {s : State} {c : Nat} (hm : s.conf.width.toNat ≤ 30)
    (hstop : StopsAt (testEngine s.conf.width.toNat s.conf.taps) c) :
    ∃ d, RunEnded (testEngine s.conf.width.toNat s.conf.taps) c d ∧
      busySteps (c + 1) (checkStarted s) = checkEnded s c d := by
  have hrun := testRun_checkStarted hm hstop (Nat.le_refl c)
  refine ⟨_, runEnded_ended hrun.table, ?_⟩
  rw [busySteps_succ, busyStep_check _ (busySteps_checkStarted_op hm hstop (Nat.le_refl c)),
    checkBusyStep_of_stopsAt hrun hstop, finishCheck, complete, checkEnded, ← hrun.engine]
  conv_lhs => rw [hrun.frame]

/-- Settles O23: the run's clocks as one induction (`testRun_busySteps`), then the step that ends it. -/
theorem checkRunEndsWithItsVerdict : Obligations.CheckRunEndsWithItsVerdict := by
  intro s c hinv hop hlow hwidth htaps hstop
  have hm : s.conf.width.toNat ≤ 30 := Nat.le_trans hwidth hinv.param.high
  obtain ⟨d, hd, hend⟩ := busySteps_checkStarted_end hm hstop
  refine ⟨checkStarted s, exec_check_valid hop ((checkOperandsValid_iff s).2 ⟨hlow, hwidth, htaps⟩),
    fun n => busySteps_checkStarted_op hm hstop, _, rfl, ?_⟩
  rw [hend]
  exact ⟨rfl, rfl, rfl, hd.cycle, rfl, hd.passCondition_iff, hd.repeated, hd.first, rfl, rfl, rfl, rfl⟩

/-- From all-ones of two bits without taps, the states are 0b11, 0b10, 0b00 and 0b00 again (R168). -/
theorem orbitState_width_two_empty_taps :
    orbitState (testEngine 2 0#32) 0 = 0b11#32 ∧ orbitState (testEngine 2 0#32) 1 = 0b10#32 ∧
    orbitState (testEngine 2 0#32) 2 = 0b00#32 ∧ orbitState (testEngine 2 0#32) 3 = 0b00#32 := by
  have h0 : orbitState (testEngine 2 0#32) 0 = 0b11#32 := rfl
  have h1 : orbitState (testEngine 2 0#32) 1 = 0b10#32 := by rw [orbitState_succ, h0]; decide
  have h2 : orbitState (testEngine 2 0#32) 2 = 0b00#32 := by rw [orbitState_succ, h1]; decide
  have h3 : orbitState (testEngine 2 0#32) 3 = 0b00#32 := by rw [orbitState_succ, h2]; decide
  exact ⟨h0, h1, h2, h3⟩

theorem stopsAt_width_two_empty_taps : StopsAt (testEngine 2 0#32) 3 where
  distinct := by
    obtain ⟨h0, h1, h2, _⟩ := orbitState_width_two_empty_taps
    intro i j hij hj
    obtain ⟨rfl, rfl⟩ | ⟨rfl, rfl⟩ | ⟨rfl, rfl⟩ : i = 0 ∧ j = 1 ∨ i = 0 ∧ j = 2 ∨ i = 1 ∧ j = 2 := by
      omega
    · simp [h0, h1]
    · simp [h0, h2]
    · simp [h1, h2]
  below := Nat.le_refl 3
  stops := .inl rfl

/-- Without taps every clock shifts in a 0, so only the seed is odd (R140, R168). -/
theorem getLsbD_zero_orbitState_succ_of_empty_taps (m k : Nat) :
    (orbitState (testEngine m 0#32) (k + 1)).getLsbD 0 = false := by
  have ht : (orbit (testEngine m 0#32) k).t = 0#32 := orbit_t _ k
  rw [orbitState, orbit, getLsbD_shiftStep_zero, feedback_of_t_zero ht]

/-- Settles O25: the run stops at the cap, on the zero state, and no state but the all-ones seed is odd. -/
theorem cornerWidthTwoEmptyTaps : Obligations.CornerWidthTwoEmptyTaps := by
  intro s hop _ hmax hwidth htaps
  have hw : s.conf.width.toNat = 2 := by rw [hwidth]; rfl
  have hvalid : checkOperandsValid s = true :=
    (checkOperandsValid_iff s).2 ⟨hw.ge, hw ▸ hmax, by rw [htaps, hw]; decide⟩
  have hstop : StopsAt (testEngine s.conf.width.toNat s.conf.taps) 3 := by
    rw [hw, htaps]
    exact stopsAt_width_two_empty_taps
  obtain ⟨d, hd, hend⟩ := busySteps_checkStarted_end (by omega) hstop
  have hcap : 3 = 2 ^ (testEngine s.conf.width.toNat s.conf.taps).m - 1 := by
    rw [hw]
    rfl
  have hcycle : d.cycle = 3#32 := BitVec.eq_of_toNat_eq hd.cycle
  refine ⟨⟨_, exec_check_valid hop hvalid, ?_⟩, fun k => ?_⟩
  · rw [hend]
    refine ⟨rfl, hd.passCondition_iff.2 hcap, hcycle, hd.count.trans hcycle, ?_, ?_⟩
    · exact Bool.eq_false_iff.2 fun hrep => hd.repeated.1 hrep hcap
    · obtain ⟨_, _, _, hlast⟩ := orbitState_width_two_empty_taps
      change orbitState (testEngine s.conf.width.toNat s.conf.taps) 3 = _
      rw [hw, htaps, hlast]
  · cases k with
    | zero => decide
    | succ k =>
      intro heq
      have hodd := getLsbD_zero_orbitState_succ_of_empty_taps 2 k
      rw [heq] at hodd
      exact absurd hodd (by decide)

end Sys2Proof.Machine
end

section
/-!
The candidate tap sets of SEARCH and the range of its result (O27, O28, O31, R180, R182, R188).
-/
namespace Sys2Proof.Machine

/-! ## Candidates (R180, R182) -/

/-- Below `2^(m-1)` an index has no bit that could overlap the top tap. -/
theorem getLsbD_cand {m : Nat} {i : Word} (hm32 : m ≤ 32) (hi : i.toNat < 2 ^ (m - 1)) (j : Nat) :
    (cand m i).getLsbD j = (decide (j = m - 1) || (decide (j < m - 1) && i.getLsbD j)) := by
  rw [cand, BitVec.getLsbD_or, getLsbD_twoPow _ _ (by omega)]
  by_cases hj : j < m - 1
  · simp [hj]
  · simp [hj, (toNat_lt_iff i _).1 hi j (by omega)]

/-- The bound of R180 on a candidate index, in the form that `cand_lt` takes. -/
theorem lt_two_pow_of_le_last {m n : Nat} (h : n ≤ 2 ^ (m - 1) - 1) : n < 2 ^ (m - 1) :=
  Nat.lt_of_le_sub_one (Nat.two_pow_pos _) h

theorem cand_topTap {m : Nat} {i : Word} (hm32 : m ≤ 32) (hi : i.toNat < 2 ^ (m - 1)) :
    (cand m i).getLsbD (m - 1) = true := by
  simp [getLsbD_cand hm32 hi]

/-- Settles O27, bit by bit. -/
theorem candidateIsTopTapAndIndex : Obligations.CandidateIsTopTapAndIndex :=
  fun _ _ _ hm _ hi => getLsbD_cand (by omega) (lt_two_pow_of_le_last hi)

theorem getLsbD_fallbackTaps {m : Nat} (hm : 2 ≤ m) (hm32 : m ≤ 32) (j : Nat) :
    (fallbackTaps m).getLsbD j = (decide (j = m - 1) || decide (j = m - 2)) := by
  rw [fallbackTaps, BitVec.getLsbD_or, getLsbD_twoPow _ _ (by omega), getLsbD_twoPow _ _ (by omega)]

/-- Settles O28: each of the two powers is one bit, and their union is how a candidate is built. -/
theorem fallbackIsTheTwoTopTaps : Obligations.FallbackIsTheTwoTopTaps :=
  fun _ hm hm30 => ⟨getLsbD_fallbackTaps hm (by omega), rfl⟩

/-! ## The end of a candidate's run (R184) -/

theorem endCandidate_passed {s : State} (h : passCondition s.det = true) :
    endCandidate s = complete .ok { s with
      primitive := true, search := { s.search with resultTaps := s.test.t, verified := true } } := by
  rw [endCandidate, if_pos h]

theorem endCandidate_last {s : State} (h : ¬ passCondition s.det = true)
    (hlast : s.search.searchI = lastCandidate s.test.m) :
    endCandidate s = complete .ok { s with
      primitive := false
      search := { s.search with resultTaps := fallbackTaps s.test.m, fallback := true } } := by
  rw [endCandidate, if_neg h, if_pos hlast]

theorem endCandidate_next {s : State} (h : ¬ passCondition s.det = true)
    (hlast : s.search.searchI ≠ lastCandidate s.test.m) :
    endCandidate s = setupCandidate (s.search.searchI + 1#32) s := by
  rw [endCandidate, if_neg h, if_neg hlast]

/-! ## The result's range (R188) -/

/-- What R188 says of a completed SEARCH: its result's range, and which of the two outcomes it reports. -/
structure ResultOk (s : State) : Prop where
  topTap : s.search.resultTaps.getLsbD (s.test.m - 1) = true
  within : s.search.resultTaps.toNat < 2 ^ s.test.m
  verified : s.search.verified = true ↔ s.primitive = true
  fallback : s.search.fallback = true ↔ s.primitive = false

/-- The result is the candidate under test or the fallback set; a further candidate leaves SEARCH running. -/
theorem resultOk_endCandidate {s : State} (h : Inv s) (hop : s.op = .search) (d : Detector)
    (hidle : (endCandidate { s with det := d }).op = .idle) :
    ResultOk (endCandidate { s with det := d }) := by
  obtain ⟨_, _, hverified, hfallback⟩ := h.status.search hop
  obtain ⟨_, hlast, htaps⟩ := h.search.candidate hop
  have hi := lt_two_pow_of_le_last hlast
  have hm : 2 ≤ s.test.m := h.engines.running (.inr hop)
  have hm32 : s.test.m ≤ 32 := Nat.le_trans h.engines.test.width (Nat.le_trans h.param.high (by decide))
  have htop : s.test.t.getLsbD (s.test.m - 1) = true := by
    rw [htaps]
    exact cand_topTap hm32 hi
  rcases endCandidate_cases { s with det := d } with ⟨_, e⟩ | ⟨_, _, e⟩ | ⟨_, _, e⟩
  · rw [e]
    exact ⟨htop, h.engines.test.taps,
      by simp, by simp [hfallback]⟩
  · rw [e]
    exact ⟨(getLsbD_fallbackTaps hm hm32 _).trans (by simp), fallbackTaps_lt _ hm hm32,
      by simp [hverified], by simp⟩
  · rw [e, setupCandidate_op] at hidle
    exact absurd (hop.symm.trans hidle) (by decide)

/-- Settles O31: only the end of a candidate's run can complete a SEARCH. -/
theorem searchResultHoldsTheTopTap : Obligations.SearchResultHoldsTheTopTap := by
  intro s h hop hidle
  have hresult : ResultOk (busyStep s) := by
    rw [busyStep_search s hop] at hidle ⊢
    rcases searchBusyStep_cases s with ⟨_, _, e⟩ | ⟨_, e⟩ | ⟨_, _, e⟩ <;> rw [e] at hidle ⊢
    · exact absurd (hop.symm.trans hidle) (by decide)
    · exact resultOk_endCandidate h hop s.det hidle
    · exact resultOk_endCandidate h hop _ hidle
  exact ⟨hresult.topTap, hresult.within, hresult.verified, hresult.fallback⟩

end Sys2Proof.Machine
end

section
/-!
SEARCH from its acceptance to the first passing candidate (O29, O30, O32, R181, R183 to R186).
-/
namespace Sys2Proof.Machine

/-! ## SEARCH at acceptance (R183, R185) -/

/-- The test engine as candidate `i` of width `m` begins its run (R185). -/
def candidateEngine (m i : Nat) : Engine := testEngine m (cand m (BitVec.ofNat 32 i))

/-- A SEARCH that was accepted in `s`, as it begins the run of candidate `i`; `d` is the detector before DetStart. -/
def candidateStarted (s : State) (i : Nat) (d : Detector) : State :=
  { s with
    primitive := false
    search := { searchI := BitVec.ofNat 32 i, resultTaps := 0#32, verified := false, fallback := false }
    test := candidateEngine s.conf.width.toNat i
    det := detStart s.conf.width.toNat d
    op := .search, doneBit := false, err := .ok, rejected := false }

theorem exec_search_valid {s : State} (hop : s.op = .idle) (h : validWidth s = true) :
    exec .search s = .next (candidateStarted s 1 s.det) := by
  have hvalid : validWidth (accept s) = true := h
  rw [exec_idle .search s hop, ruleOf, searchRule_of_valid hvalid]
  rfl

theorem exec_search_invalid {s : State} (hop : s.op = .idle) (h : validWidth s ≠ true) :
    exec .search s = .next { s with doneBit := true, err := .invalidConfig, rejected := false } := by
  have hinvalid : validWidth (accept s) ≠ true := h
  rw [exec_idle .search s hop, ruleOf, searchRule, if_neg hinvalid, complete_accept_of_idle hop]

/-- Settles O29: SEARCH's rule by the check of WIDTH, on the cleared status. -/
theorem searchStartsWithCandidateOne : Obligations.SearchStartsWithCandidateOne := by
  refine ⟨decode_encode .search, fun s hop => ?_⟩
  rw [← validWidth_iff]
  exact ⟨exec_search_valid hop, exec_search_invalid hop⟩

/-! ## A SEARCH busy step (R184) -/

/-- Settles O30: the busy step by the result of its iteration; a busy step of SEARCH leaves the rest alone. -/
theorem searchBusyStepAdvances : Obligations.SearchBusyStepAdvances := by
  intro s t res hop hiter
  have hstep : busyStep s = searchBusyStep s := busyStep_search s hop
  obtain ⟨_, _, _, _, _, hframe, _⟩ := busyStep_frame s
  obtain ⟨hlive, _, _, hks, htraced⟩ := hframe (by simp [hop])
  refine ⟨fun k st fb out hres => ?_, fun hres => ?_, htraced, hlive, fun a => by rw [hks]⟩
  · rw [hstep, searchBusyStep, hiter, hres]
  · have hend : busyStep s = endCandidate t := by
      rcases hres with rfl | rfl <;> rw [hstep, searchBusyStep, hiter]
    rw [hend, ← passCondition_iff]
    exact ⟨endCandidate_passed, endCandidate_last, endCandidate_next⟩

/-! ## The run of one candidate (R164, R184) -/

/-- At the clock where the run stops, the candidate's verdict is drawn (R184). -/
theorem searchBusyStep_of_stopsAt {x : Engine} {c : Nat} {t u : State} (h : TestRun x c t u)
    (hstop : StopsAt x c) :
    searchBusyStep u = endCandidate { u with det := u.det.ended (orbitState x c) } := by
  have hr : u.test.r = orbitState x c := congrArg Engine.r h.engine
  rw [Detector.ended, ← hr]
  rcases searchBusyStep_cases u with ⟨hne, hnew, _⟩ | ⟨hcap, e⟩ | ⟨hne, _, e⟩
  · have hseen := seen_of_stopsAt x c u.det h.table hstop hne
    rw [← hr, hnew] at hseen
    cases hseen
  · rw [e, if_pos hcap]
  · rw [e, if_neg hne]
    rfl

/-- A candidate whose run stops with CYCLE = `c` takes `c + 1` busy steps to its verdict (R173, R190). -/
theorem busySteps_candidateStarted {s : State} {i c : Nat} (d : Detector) (hm : s.conf.width.toNat ≤ 30)
    (hstop : StopsAt (candidateEngine s.conf.width.toNat i) c) :
    ∃ d', RunEnded (candidateEngine s.conf.width.toNat i) c d' ∧
      busySteps (c + 1) (candidateStarted s i d) = endCandidate
        { candidateStarted s i d with test := orbit (candidateEngine s.conf.width.toNat i) c, det := d' } := by
  have hstart : TestRun (candidateEngine s.conf.width.toNat i) 0 (candidateStarted s i d)
      (candidateStarted s i d) := ⟨rfl, tableAt_start (candidateEngine s.conf.width.toNat i) d hm, rfl⟩
  have hrun := testRun_busySteps _ c _ hm hstart (.inr rfl) hstop.distinct hstop.below c (Nat.le_refl c)
  have hop : (busySteps c (candidateStarted s i d)).op = .search := by
    rw [hrun.frame]
    rfl
  refine ⟨_, runEnded_ended hrun.table, ?_⟩
  rw [busySteps_succ, busyStep_search _ hop, searchBusyStep_of_stopsAt hrun hstop, ← hrun.engine]
  conv_lhs => rw [hrun.frame]

/-- Setting up the next candidate leaves nothing of the run before it (R185). -/
theorem setupCandidate_candidateStarted (s : State) (i : Nat) (d d' : Detector) {x : Engine}
    (hx : x.m = s.conf.width.toNat) :
    setupCandidate (BitVec.ofNat 32 i + 1#32) { candidateStarted s i d with test := x, det := d' } =
      candidateStarted s (i + 1) d' := by
  have hsucc : BitVec.ofNat 32 i + 1#32 = BitVec.ofNat 32 (i + 1) := (BitVec.ofNat_add i 1).symm
  obtain ⟨m, r, t⟩ := x
  subst hx
  rw [hsucc]
  rfl

/-- After a failing candidate that is not the last one, SEARCH begins the next, within `2^m` busy steps (R181). -/
theorem candidateStarted_succ {s : State} {i : Nat} (d : Detector) (hm : s.conf.width.toNat ≤ 30)
    (hlast : i < 2 ^ (s.conf.width.toNat - 1) - 1)
    (hfail : ¬ Passes s.conf.width.toNat (cand s.conf.width.toNat (BitVec.ofNat 32 i))) :
    ∃ n d', n ≤ 2 ^ s.conf.width.toNat ∧
      busySteps n (candidateStarted s i d) = candidateStarted s (i + 1) d' := by
  obtain ⟨c, hstop⟩ := exists_stopsAt (candidateEngine s.conf.width.toNat i)
  obtain ⟨d', hd', hrun⟩ := busySteps_candidateStarted d hm hstop
  have hbelow : c ≤ 2 ^ s.conf.width.toNat - 1 := hstop.below
  have hpos := Nat.two_pow_pos s.conf.width.toNat
  have hnpass : ¬ passCondition d' = true := by
    rw [hd'.passCondition_iff]
    rintro rfl
    exact hfail hstop.distinct
  have hnlast : BitVec.ofNat 32 i ≠ lastCandidate s.conf.width.toNat := by
    intro heq
    have hnat := congrArg BitVec.toNat heq
    have hpow : 2 ^ (s.conf.width.toNat - 1) ≤ 2 ^ 30 := two_pow_le_of_le (by omega)
    rw [toNat_lastCandidate _ (by omega), BitVec.toNat_ofNat] at hnat
    omega
  have hm' : (orbit (candidateEngine s.conf.width.toNat i) c).m = s.conf.width.toNat := orbit_m _ c
  refine ⟨c + 1, d', by omega, ?_⟩
  rw [hrun, endCandidate_next hnpass (by rwa [hm'])]
  exact setupCandidate_candidateStarted s i d d' hm'

/-! ## The enumeration up to the first passing candidate (R181) -/

/-- When the candidates below `i` fail, SEARCH comes to candidate `i`, within `2^m` busy steps for each of them. -/
theorem search_reaches {s : State} (hm : s.conf.width.toNat ≤ 30) {i : Nat} (hi : 1 ≤ i)
    (hlast : i ≤ 2 ^ (s.conf.width.toNat - 1) - 1)
    (hfail : ∀ j, 1 ≤ j → j < i →
      ¬ Passes s.conf.width.toNat (cand s.conf.width.toNat (BitVec.ofNat 32 j))) :
    ∃ n d, n ≤ (i - 1) * 2 ^ s.conf.width.toNat ∧
      busySteps n (candidateStarted s 1 s.det) = candidateStarted s i d := by
  induction i, hi using Nat.le_induction with
  | base => exact ⟨0, s.det, Nat.zero_le _, rfl⟩
  | succ i hi ih =>
    obtain ⟨n, d, hn, hreach⟩ := ih (by omega) fun j hj hji => hfail j hj (by omega)
    obtain ⟨k, d', hk, hnext⟩ := candidateStarted_succ d hm (by omega) (hfail i hi (by omega))
    refine ⟨n + k, d', ?_, by rw [busySteps_add, hreach, hnext]⟩
    calc n + k ≤ (i - 1) * 2 ^ s.conf.width.toNat + 2 ^ s.conf.width.toNat := Nat.add_le_add hn hk
      _ = (i + 1 - 1) * 2 ^ s.conf.width.toNat := by
        rw [← Nat.succ_mul, Nat.succ_eq_add_one, Nat.sub_add_cancel hi, Nat.add_sub_cancel]

/-! ## The full period (R169, R186) -/

/-- With tap `m-1` the first repeated state is the one the run began with, since a clock loses no state. -/
theorem repeat_is_start_of_topTap {x : Engine} {c j : Nat} (hm : 1 ≤ x.m) (hm32 : x.m ≤ 32)
    (hr : x.r.toNat < 2 ^ x.m) (ht : x.t.toNat < 2 ^ x.m) (htop : x.t.getLsbD (x.m - 1) = true)
    (hd : DistinctUpTo x c) (hj : j < c) (he : orbitState x c = orbitState x j) : j = 0 := by
  by_contra hne
  obtain ⟨k, rfl⟩ := Nat.exists_eq_succ_of_ne_zero hne
  obtain ⟨b, rfl⟩ := Nat.exists_eq_succ_of_ne_zero (Nat.ne_zero_of_lt hj)
  rw [Nat.succ_eq_add_one, Nat.succ_eq_add_one, orbitState_succ, orbitState_succ] at he
  have hpred := injOn_nextState hm hm32 ht htop (orbitState_lt hr ht b) (orbitState_lt hr ht k) he
  exact hd k b (by omega) (by omega) hpred.symm

theorem distinctUpTo_succ {x : Engine} {c : Nat} (hd : DistinctUpTo x c)
    (hnew : ∀ j, j < c → orbitState x c ≠ orbitState x j) : DistinctUpTo x (c + 1) := by
  intro i j hij hj
  rcases Nat.lt_succ_iff_lt_or_eq.1 hj with hlt | rfl
  · exact hd i j hij hlt
  · exact (hnew i hij).symm

/-- A passing tap set with tap `m-1` brings the all-ones seed back after `2^m - 1` clocks (R169). -/
theorem orbitState_period_of_passes {m : Nat} {taps : Word} (hm : 2 ≤ m) (hm32 : m ≤ 32)
    (ht : taps.toNat < 2 ^ m) (htop : taps.getLsbD (m - 1) = true) (hpass : Passes m taps) :
    orbitState (testEngine m taps) (2 ^ m - 1) = mask m := by
  have hrepeat : ∃ j, j < 2 ^ m - 1 ∧
      orbitState (testEngine m taps) (2 ^ m - 1) = orbitState (testEngine m taps) j := by
    by_contra hno
    have hd : DistinctUpTo (testEngine m taps) (2 ^ m - 1 + 1) :=
      distinctUpTo_succ hpass fun j hj he => hno ⟨j, hj, he⟩
    have hle : 2 ^ m - 1 + 1 ≤ 2 ^ m - 1 := distinct_le (x := testEngine m taps) hm hm32 (mask_lt m) ht hd
    omega
  obtain ⟨j, hj, he⟩ := hrepeat
  have hm1 : 1 ≤ m := Nat.le_of_succ_le hm
  have hj0 : j = 0 :=
    repeat_is_start_of_topTap (x := testEngine m taps) hm1 hm32 (mask_lt m) ht htop hpass hj he
  rw [he, hj0]
  rfl

/-! ## A whole SEARCH (R181, R184, R186) -/

/-- The run of a passing candidate makes all its clocks, and SEARCH ends with the candidate verified (R184). -/
theorem busySteps_candidateStarted_passed {s : State} {i : Nat} (d : Detector)
    (hm : s.conf.width.toNat ≤ 30)
    (hpass : Passes s.conf.width.toNat (cand s.conf.width.toNat (BitVec.ofNat 32 i))) :
    ∃ d', d'.cycle.toNat = 2 ^ s.conf.width.toNat - 1 ∧ d'.repeated = false ∧
      busySteps (2 ^ s.conf.width.toNat) (candidateStarted s i d) =
        { candidateStarted s i d with
          primitive := true
          search := { searchI := BitVec.ofNat 32 i
                      resultTaps := cand s.conf.width.toNat (BitVec.ofNat 32 i)
                      verified := true, fallback := false }
          test := orbit (candidateEngine s.conf.width.toNat i) (2 ^ s.conf.width.toNat - 1)
          det := d', op := .idle, doneBit := true } := by
  have hstop : StopsAt (candidateEngine s.conf.width.toNat i) (2 ^ s.conf.width.toNat - 1) :=
    ⟨hpass, Nat.le_refl _, .inl rfl⟩
  obtain ⟨d', hd', hrun⟩ := busySteps_candidateStarted d hm hstop
  have hpassed : passCondition d' = true := hd'.passCondition_iff.2 rfl
  refine ⟨d', hd'.cycle, ((passCondition_iff d').1 hpassed).1, ?_⟩
  rw [Nat.sub_add_cancel (Nat.two_pow_pos _)] at hrun
  rw [hrun, endCandidate_passed hpassed, orbit_t]
  rfl

/-- Settles O32: the failing candidates one after another, then the full period of the first passing one. -/
theorem searchReturnsTheFirstPassingCandidate : Obligations.SearchReturnsTheFirstPassingCandidate := by
  intro s i hinv hop hlow hwidth hi hlast hpass hfail
  have hm : s.conf.width.toNat ≤ 30 := Nat.le_trans hwidth hinv.param.high
  obtain ⟨n, d, hn, hreach⟩ := search_reaches hm hi hlast hfail
  obtain ⟨d', hcycle, hrepeated, hend⟩ := busySteps_candidateStarted_passed d hm hpass
  have hindex : (BitVec.ofNat 32 i).toNat < 2 ^ (s.conf.width.toNat - 1) :=
    Nat.lt_of_le_of_lt (Nat.mod_le _ _) (lt_two_pow_of_le_last hlast)
  refine ⟨_, n + 2 ^ s.conf.width.toNat, exec_search_valid hop ((validWidth_iff s).2 ⟨hlow, hwidth⟩),
    ?_, _, rfl, ?_⟩
  · calc n + 2 ^ s.conf.width.toNat
        ≤ (i - 1) * 2 ^ s.conf.width.toNat + 2 ^ s.conf.width.toNat := Nat.add_le_add_right hn _
      _ = i * 2 ^ s.conf.width.toNat := by
        rw [← Nat.succ_mul, Nat.succ_eq_add_one, Nat.sub_add_cancel hi]
  · rw [busySteps_add, hreach, hend]
    have hseed : (orbit (candidateEngine s.conf.width.toNat i) (2 ^ s.conf.width.toNat - 1)).r =
        mask s.conf.width.toNat :=
      orbitState_period_of_passes hlow (by omega) (cand_lt _ _ (by omega) (by omega) hindex)
        (cand_topTap (by omega) hindex) hpass
    exact ⟨rfl, rfl, rfl, rfl, rfl, orbit_t _ _, hseed, hcycle, hrepeated, rfl, rfl, rfl, rfl⟩

end Sys2Proof.Machine
end

section
/-!
GENKS at acceptance, its busy step and its completion (O33 to O35, R200 to R206), and a whole GENKS (O36, R207, R210).
-/
namespace Sys2Proof.Machine

/-! ## GENKS at acceptance (R200) -/

/-- The block after a GENKS on a loaded engine is accepted (R200). -/
def genksStarted (s : State) : State :=
  { s with
    ks := { s.ks with len := 0#32 }
    det := detStart s.live.m s.det
    op := .genks, doneBit := false, err := .ok, rejected := false }

theorem exec_genks_loaded {s : State} (hop : s.op = .idle) (hloaded : s.loaded = true) :
    exec .genks s = .next (genksStarted s) := by
  rw [exec_idle .genks s hop, ruleOf, genksRule, accept_loaded, if_pos hloaded]
  rfl

theorem exec_genks_unloaded {s : State} (hop : s.op = .idle) (hloaded : s.loaded = false) :
    exec .genks s = .next { s with doneBit := true, err := .notLoaded, rejected := false } := by
  rw [exec_idle .genks s hop, ruleOf, genksRule, accept_loaded, if_neg (by simp [hloaded]),
    complete_accept_of_idle hop]

/-- Settles O33: GENKS's rule by LOADED, on the cleared status. -/
theorem genksStartsOnTheLoadedEngine : Obligations.GenksStartsOnTheLoadedEngine :=
  ⟨decode_encode .genks, fun _ hop => ⟨exec_genks_loaded hop, exec_genks_unloaded hop⟩⟩

/-! ## A GENKS busy step (R203 to R206) -/

/-- What an iteration that clocked has reported and left (R162). -/
theorem eq_of_detIter_clocked {b : Bound} {s t : State} {k st : Word} {fb out : Bool}
    (h : detIter b s = (.clocked k st fb out, t)) :
    DetResult.clocked k st fb out = clockedResult b s ∧ t = clockedState b s := by
  rcases detIter_cases b s with ⟨_, e⟩ | ⟨_, _, e⟩ | ⟨_, _, e⟩ <;> rw [e] at h
  · cases h
  · cases h
  · exact ⟨(congrArg Prod.fst h).symm, (congrArg Prod.snd h).symm⟩

/-- Settles O34: the clock's output is stored over the state the iteration left, which has the old buffer and trace. -/
theorem genksBusyStepStoresOneBit : Obligations.GenksBusyStepStoresOneBit := by
  intro s t k st fb out hop hiter
  have hstep : busyStep s = storeClock k st fb out t := by rw [busyStep_genks s hop, genksBusyStep, hiter]
  obtain ⟨hres, rfl⟩ := eq_of_detIter_clocked hiter
  obtain ⟨rfl, rfl, rfl, rfl⟩ := DetResult.clocked.inj hres
  rw [hstep]
  exact ⟨rfl, fun a => Memory.read_write s.ks.buf s.det.cycle.toNat a _, rfl⟩

@[simp] theorem Detector.ended_ones (d : Detector) (r : Word) : (d.ended r).ones = d.ones := by
  rw [Detector.ended]
  split <;> rfl

@[simp] theorem Detector.ended_cycle (d : Detector) (r : Word) : (d.ended r).cycle = d.cycle := by
  rw [Detector.ended]
  split <;> rfl

/-- An iteration that ends a run changes the detector alone (R162). -/
theorem eq_of_detIter_ended {b : Bound} {s t : State} {res : DetResult} (h : detIter b s = (res, t))
    (hres : res = .cap ∨ res = .repeated) :
    t = { s with det := s.det.ended (engineOf b s).r } := by
  rw [Detector.ended]
  rcases detIter_cases b s with ⟨hcap, e⟩ | ⟨hne, _, e⟩ | ⟨_, _, e⟩ <;> rw [e] at h <;> cases h
  · rw [if_pos hcap]
  · rw [if_neg hne, repeatedState]
  · simp [clockedResult] at hres

/-- `finish_genks()` as one change of the state (R204). -/
theorem finishGenks_eq (s : State) :
    finishGenks s = { s with
      ks := { s.ks with len := if s.det.ones then s.det.cycle else 0#32 }
      err := if s.det.ones then .ok else .degenerateKeystream
      doneBit := true, op := .idle } := by
  rw [finishGenks]
  split <;> rfl

/-- Settles O35: the iteration that ends the run keeps ONES and CYCLE, by which the completion goes. -/
theorem genksCompletes : Obligations.GenksCompletes := by
  intro s t res hop hiter hres
  have hstep : busyStep s = finishGenks t := by
    rcases hres with rfl | rfl <;> rw [busyStep_genks s hop, genksBusyStep, hiter]
  have ht := eq_of_detIter_ended hiter hres
  have hones : t.det.ones = s.det.ones := by rw [ht, Detector.ended_ones]
  have hcycle : t.det.cycle = s.det.cycle := by rw [ht, Detector.ended_cycle]
  have hks : t.ks = s.ks := by rw [ht]
  rw [hstep, finishGenks_eq, hones, hcycle, hks]
  exact ⟨fun h => by simp [h], fun h => by simp [h]⟩

/-! ## A whole GENKS (R203 to R207, R210) -/

/-- At the clock where the run stops, GENKS ends (R203). -/
theorem genksBusyStep_of_stopsAt {x : Engine} {c : Nat} {t u : State} (h : GenksRun x c t u)
    (hstop : StopsAt x c) :
    genksBusyStep u = finishGenks { u with det := u.det.ended (orbitState x c) } := by
  have hr : u.live.r = orbitState x c := congrArg Engine.r h.engine
  rw [Detector.ended, ← hr]
  rcases genksBusyStep_cases u with ⟨hne, hnew, _⟩ | ⟨hcap, e⟩ | ⟨hne, _, e⟩
  · have hseen := seen_of_stopsAt x c u.det h.table hstop hne
    rw [← hr, hnew] at hseen
    cases hseen
  · rw [e, if_pos hcap]
  · rw [e, if_neg hne]
    rfl

section

variable {s : State} {c : Nat} (hm : s.live.m ≤ 30) (hstop : StopsAt s.live c)
include hm hstop

theorem genksRun_genksStarted {n : Nat} (hn : n ≤ c) :
    GenksRun s.live n (genksStarted s) (busySteps n (genksStarted s)) :=
  have hstart : GenksRun s.live 0 (genksStarted s) (genksStarted s) :=
    { engine := rfl
      table := tableAt_start s.live s.det hm
      ones := by simp [genksStarted, detStart]
      written := nofun
      above := fun _ _ => rfl
      length := rfl
      trace := (List.append_nil _).symm
      frame := rfl }
  genksRun_busySteps s.live c _ hm hstart rfl hstop.distinct hstop.below n hn

/-- Every step of a GENKS up to the one that ends it is a clock (R210). -/
theorem busySteps_genksStarted_op {n : Nat} (hn : n ≤ c) :
    (busySteps n (genksStarted s)).op = .genks := by
  rw [(genksRun_genksStarted hm hstop hn).frame]
  rfl

/-- A GENKS ends `c + 1` busy steps after acceptance, from the state its `c` clocks left (R203, R210). -/
theorem busySteps_genksStarted_end :
    ∃ u d, GenksRun s.live c (genksStarted s) u ∧ RunEnded s.live c d ∧ d.ones = u.det.ones ∧
      busySteps (c + 1) (genksStarted s) = finishGenks { u with det := d } := by
  have hrun := genksRun_genksStarted hm hstop (Nat.le_refl c)
  refine ⟨_, _, hrun, runEnded_ended hrun.table, Detector.ended_ones _ _, ?_⟩
  rw [busySteps_succ, busyStep_genks _ (busySteps_genksStarted_op hm hstop (Nat.le_refl c)),
    genksBusyStep_of_stopsAt hrun hstop]

end

theorem Inv.live_width {s : State} (h : Inv s) : s.live.m ≤ 30 :=
  Nat.le_trans h.engines.live.width h.param.high

/-- Settles O36: the run's clocks as one induction (`genksRun_busySteps`), then the step that ends it. -/
theorem genksRunProducesOnePeriod : Obligations.GenksRunProducesOnePeriod := by
  intro s c hinv hop hloaded hstop
  have hm := hinv.live_width
  obtain ⟨u, d, hrun, hd, hones, hend⟩ := busySteps_genksStarted_end hm hstop
  have hframe := hrun.frame
  refine ⟨_, exec_genks_loaded hop hloaded, fun n => busySteps_genksStarted_op hm hstop, _, rfl, ?_⟩
  rw [hend, finishGenks_eq, hones]
  refine ⟨rfl, rfl, hd.cycle, hrun.engine, hrun.written, hrun.above, hrun.trace, fun hone => ?_,
    fun hzero => ?_, ?_, ?_, ?_, ?_⟩
  · simp [hrun.ones.2 hone, hd.cycle]
  · have hnone : ¬ u.det.ones = true := by
      rw [hrun.ones]
      rintro ⟨k, hk, hout⟩
      rw [hzero k hk] at hout
      cases hout
    simp [hnone]
  all_goals
    rw [hframe]
    rfl

end Sys2Proof.Machine
end

section
/-!
What a completed GENKS shows of its start (O37, O38, R208, R209): every run comes back to one of its states, and every bit
of a state reaches the output end.
-/
namespace Sys2Proof.Machine

/-! ## Every run repeats a state (R164, R172) -/

section

variable {x : Engine} {c : Nat}

/-- Where a run stops, at the cap too, the state repeats an earlier one (R172, R207). -/
theorem StopsAt.repeats (hstop : StopsAt x c) (hm : 2 ≤ x.m) (hm32 : x.m ≤ 32) (hr : x.r.toNat < 2 ^ x.m)
    (ht : x.t.toNat < 2 ^ x.m) : ∃ j, j < c ∧ orbitState x c = orbitState x j := by
  rcases hstop.stops with hcap | hrepeat
  · by_contra hno
    have hd := distinctUpTo_succ hstop.distinct fun j hj he => hno ⟨j, hj, he⟩
    have hle := distinct_le hm hm32 hr ht hd
    omega
  · exact hrepeat

/-- After a repeat the trajectory stays among the states before it. -/
theorem exists_lt_orbit_eq_of_repeat {j : Nat} (hj : j < c) (he : orbitState x c = orbitState x j) (k : Nat) :
    ∃ i, i < c ∧ orbit x k = orbit x i := by
  induction k with
  | zero => exact ⟨0, by omega, rfl⟩
  | succ k ih =>
    obtain ⟨i, hi, hk⟩ := ih
    have hnext : orbit x (k + 1) = orbit x (i + 1) := congrArg shiftStep hk
    rcases Nat.lt_or_eq_of_le hi with hlt | rfl
    · exact ⟨i + 1, hlt, hnext⟩
    · exact ⟨j, hj, hnext.trans ((orbit_eq_iff x (i + 1) j).2 he)⟩

/-! ## Every bit of a state reaches the output end (R142, R208) -/

/-- A clock moves each bit one place up, so `n` clocks move it `n` places. -/
theorem getLsbD_orbitState_add (hm32 : x.m ≤ 32) {i n : Nat} (h : i + n < x.m) :
    (orbitState x n).getLsbD (i + n) = x.r.getLsbD i := by
  induction n with
  | zero => rfl
  | succ n ih =>
    rw [← ih (by omega)]
    exact getLsbD_shiftStep_of_pos (x := orbit x n) (by omega) (by simpa using h) (by simpa using hm32)

/-- From a nonzero state some clock outputs a 1. -/
theorem exists_output_of_ne_zero (hm32 : x.m ≤ 32) (hr : x.r.toNat < 2 ^ x.m) (hne : x.r ≠ 0#32) :
    ∃ k, output (orbit x k) = true := by
  by_contra hno
  refine hne (BitVec.eq_of_getLsbD_eq fun i _ => ?_)
  rw [BitVec.getLsbD_zero]
  by_cases hi : i < x.m
  · have hmove := getLsbD_orbitState_add hm32 (x := x) (i := i) (n := x.m - 1 - i) (by omega)
    rw [show i + (x.m - 1 - i) = x.m - 1 by omega] at hmove
    have hout : output (orbit x (x.m - 1 - i)) = x.r.getLsbD i := by
      rw [output, orbit_m]
      exact hmove
    rw [← hout]
    exact Bool.eq_false_iff.2 fun hone => hno ⟨_, hone⟩
  · exact (toNat_lt_iff _ _).1 hr i (by omega)

theorem orbit_of_r_zero (hzero : x.r = 0#32) (k : Nat) : orbit x k = x := by
  induction k with
  | zero => rfl
  | succ k ih => rw [orbit, ih, shiftStep_of_r_zero x hzero]

/-- A run outputs a 1 exactly when it starts on a nonzero state (R208). -/
theorem StopsAt.exists_output_iff (hstop : StopsAt x c) (hm : 2 ≤ x.m) (hm32 : x.m ≤ 32)
    (hr : x.r.toNat < 2 ^ x.m) (ht : x.t.toNat < 2 ^ x.m) :
    (∃ k, k < c ∧ output (orbit x k) = true) ↔ x.r ≠ 0#32 := by
  constructor
  · rintro ⟨k, _, hout⟩ hzero
    rw [orbit_of_r_zero hzero, output_of_r_zero x hzero] at hout
    cases hout
  · intro hne
    obtain ⟨j, hj, he⟩ := hstop.repeats hm hm32 hr ht
    obtain ⟨k, hout⟩ := exists_output_of_ne_zero hm32 hr hne
    obtain ⟨i, hi, hk⟩ := exists_lt_orbit_eq_of_repeat hj he k
    exact ⟨i, hi, hk ▸ hout⟩

/-- From the zero state a run stops after one clock (R150, R208). -/
theorem StopsAt.eq_one_of_r_zero (hstop : StopsAt x c) (hm : 2 ≤ x.m) (hm32 : x.m ≤ 32)
    (ht : x.t.toNat < 2 ^ x.m) (hzero : x.r = 0#32) : c = 1 := by
  have hr : x.r.toNat < 2 ^ x.m := by simp [hzero]
  have hfixed : orbitState x 0 = orbitState x 1 := by rw [orbitState, orbitState, orbit_of_r_zero hzero 1]; rfl
  have hle : ¬ 1 < c := fun hc => hstop.distinct 0 1 Nat.one_pos hc hfixed
  obtain ⟨j, hj, _⟩ := hstop.repeats hm hm32 hr ht
  omega

end

/-! ## The zero start (R208) -/

/-- Settles O37: a run outputs a 1 exactly from a nonzero start; from zero it stops on its first state after one clock. -/
theorem degenerateIffZeroStart : Obligations.DegenerateIffZeroStart := by
  intro s hinv hop hloaded
  obtain ⟨_, hr, ht⟩ := hinv.engines.live
  have hm := hinv.live_width
  have hlow := hinv.engines.loaded hloaded
  obtain ⟨c, hstop⟩ := exists_stopsAt s.live
  obtain ⟨u, d, hrun, hd, hones, hend⟩ := busySteps_genksStarted_end hm hstop
  have hone : u.det.ones = true ↔ s.live.r ≠ 0#32 :=
    hrun.ones.trans (hstop.exists_output_iff hlow (by omega) hr ht)
  have hnone : u.det.ones = false ↔ s.live.r = 0#32 := by rw [← Bool.not_eq_true, hone, not_not]
  have hpow : 2 ^ 2 ≤ 2 ^ s.live.m := two_pow_le_of_le hlow
  have hbelow := hstop.below
  refine ⟨_, c + 1, exec_genks_loaded hop hloaded, by omega, _, rfl, ?_⟩
  rw [hend, finishGenks_eq, hones]
  refine ⟨rfl, rfl, ?_, ?_, fun hzero => ?_⟩
  · rw [← hnone]
    cases u.det.ones <;> simp
  · rw [← hone]
    cases u.det.ones <;> simp
  · obtain rfl := hstop.eq_one_of_r_zero hlow (by omega) ht hzero
    have hcap : 1 ≠ 2 ^ s.live.m - 1 := by omega
    have hfixed : orbitState s.live 1 = orbitState s.live 0 := by
      rw [orbitState, orbitState, orbit_of_r_zero hzero, orbit_of_r_zero hzero]
    have hfirst : d.repeatFirst.toNat = 0 := hd.first 0 Nat.one_pos hcap hfixed
    exact ⟨rfl, BitVec.eq_of_toNat_eq hd.cycle, hd.repeated.2 hcap, BitVec.eq_of_toNat_eq hfirst,
      by simp [hnone.2 hzero]⟩

/-! ## With tap `m-1` (R209) -/

/-- Settles O38: the state a run stops on repeats an earlier one, with tap `m-1` the one it began with. -/
theorem genksWithTopTapReturnsToItsStart : Obligations.GenksWithTopTapReturnsToItsStart := by
  intro s hinv hop hloaded htop
  obtain ⟨_, hr, ht⟩ := hinv.engines.live
  have hm := hinv.live_width
  have hlow := hinv.engines.loaded hloaded
  obtain ⟨c, hstop⟩ := exists_stopsAt s.live
  obtain ⟨j, hj, he⟩ := hstop.repeats hlow (by omega) hr ht
  have hj0 : j = 0 := repeat_is_start_of_topTap (by omega) (by omega) hr ht htop hstop.distinct hj he
  have hback : orbit s.live c = s.live := (orbit_eq_iff s.live c 0).2 (hj0 ▸ he)
  obtain ⟨t, hexec, _, _, rfl, hidle, hdone, _, hlive, _⟩ :=
    genksRunProducesOnePeriod s c hinv hop hloaded hstop
  have hbelow := hstop.below
  exact ⟨t, c + 1, hexec, by omega, hidle, hdone, hlive.trans hback⟩

end Sys2Proof.Machine
end

section
/-!
Who writes the keystream buffer and the trace (O39, O40, R205, R206): of everything a step can be, only a clock of GENKS.
-/
namespace Sys2Proof.Machine

/-- `t` holds the keystream buffer and the trace of `s`. -/
def SameOutput (s t : State) : Prop := t.ks.buf = s.ks.buf ∧ t.traced = s.traced

/-- One clock of a running GENKS led from `s` to `t`: the engine, the buffer and the trace (R203, R205, R206). -/
def GenksClocks (s t : State) : Prop :=
  s.op = .genks ∧ t.live = shiftStep s.live ∧
  t.ks.buf = Memory.write s.ks.buf s.det.cycle.toNat (BitVec.ofBool (output s.live)) ∧
  t.traced = s.traced ++
    [{ k := s.det.cycle, s := s.live.r, fb := feedback s.live, out := output s.live }]

/-! ## Commands -/

theorem sameOutput_ruleOf (i : Instr) (s : State) : SameOutput s (ruleOf i s) := by
  cases i with
  | nop => exact ⟨rfl, rfl⟩
  | load =>
    rw [ruleOf, loadRule]
    split <;> exact ⟨rfl, rfl⟩
  | shift =>
    rw [ruleOf, shiftRule]
    split <;> exact ⟨rfl, rfl⟩
  | check =>
    rw [ruleOf, checkRule]
    split <;> exact ⟨rfl, rfl⟩
  | search =>
    rw [ruleOf, searchRule]
    split <;> exact ⟨rfl, rfl⟩
  | genks =>
    rw [ruleOf, genksRule]
    split <;> exact ⟨rfl, rfl⟩
  | cancel => exact ⟨rfl, rfl⟩

/-- A command runs its rule, ends the running command, or is rejected (R120). -/
theorem exec_cases {i : Instr} {s t : State} (e : exec i s = .next t) :
    t = ruleOf i (accept s) ∨ t = complete .cancelled (accept s) ∨ t = reject s := by
  by_cases hop : s.op = .idle
  · rw [exec_idle i s hop] at e
    cases e
    exact .inl rfl
  · by_cases hi : i = .cancel
    · subst hi
      rw [exec_cancel_busy s hop] at e
      cases e
      exact .inr (.inl rfl)
    · rw [exec_busy i s hop hi] at e
      cases e
      exact .inr (.inr rfl)

theorem sameOutput_exec {i : Instr} {s t : State} (e : exec i s = .next t) : SameOutput s t := by
  rcases exec_cases e with rfl | rfl | rfl
  · exact sameOutput_ruleOf i (accept s)
  · exact ⟨rfl, rfl⟩
  · exact ⟨rfl, rfl⟩

theorem sameOutput_illegalCommand {s t : State} (e : illegalCommand s = .next t) : SameOutput s t := by
  by_cases hop : s.op = .idle
  · rw [illegalCommand_idle s hop] at e
    cases e
    exact ⟨rfl, rfl⟩
  · rw [illegalCommand_busy s hop] at e
    cases e
    exact ⟨rfl, rfl⟩

/-! ## Busy steps -/

theorem sameOutput_finishGenks (s : State) : SameOutput s (finishGenks s) := by
  rw [finishGenks_eq]
  exact ⟨rfl, rfl⟩

/-- A busy step is a clock of GENKS, or it leaves the buffer and the trace alone. -/
theorem busyStep_sameOutput_or_clocks (s : State) :
    SameOutput s (busyStep s) ∨ GenksClocks s (busyStep s) := by
  by_cases hop : s.op = .genks
  · rw [busyStep_genks s hop]
    rcases genksBusyStep_cases s with ⟨_, _, e⟩ | ⟨_, e⟩ | ⟨_, _, e⟩ <;> rw [e]
    · exact .inr ⟨hop, rfl, rfl, rfl⟩
    · exact .inl (sameOutput_finishGenks s)
    · exact .inl (sameOutput_finishGenks (repeatedState .live s))
  · obtain ⟨_, _, _, _, _, hframe, _⟩ := busyStep_frame s
    obtain ⟨_, _, _, hks, htraced⟩ := hframe hop
    exact .inl ⟨congrArg Keystream.buf hks, htraced⟩

/-! ## Steps -/

/-- Everything a step can do to the buffer and the trace (R205, R206, R400). -/
theorem step_output {s t : State} (hstep : step s = .next t) :
    SameOutput s t ∨ GenksClocks s t ∨ (s.events.head? = some .reset ∧ t.traced = s.traced) := by
  have hbusy : SameOutput s (busyStep s) ∨ GenksClocks s (busyStep s) ∨
      (s.events.head? = some .reset ∧ (busyStep s).traced = s.traced) :=
    (busyStep_sameOutput_or_clocks s).imp_right .inl
  rcases step_cases s t hstep with ⟨_, rfl⟩ | ⟨_, _, rfl⟩ | ⟨_, _, rfl⟩ | ⟨_, he, rfl⟩ |
    ⟨_, _, _, rfl⟩ | ⟨_, _, _, _, _, rfl⟩ | ⟨_, _, _, _, _, e⟩ | ⟨_, _, _, _, _, e⟩
  · exact hbusy
  · exact (busyStep_sameOutput_or_clocks (popEvent s)).imp_right .inl
  · rw [waitStep]
    split
    · exact hbusy
    · exact .inl ⟨rfl, rfl⟩
  · exact .inr (.inr ⟨by rw [he, List.head?_cons], rfl⟩)
  · exact .inl ⟨rfl, rfl⟩
  · rw [hostWrite_eq]
    exact .inl ⟨rfl, rfl⟩
  · exact .inl (sameOutput_exec (s := popEvent s) e)
  · exact .inl (sameOutput_illegalCommand (s := popEvent s) e)

/-- Settles O39: a clock of GENKS writes one index, and nothing else but reset changes the buffer. -/
theorem onlyGenksWritesTheBuffer : Obligations.OnlyGenksWritesTheBuffer := by
  intro s t hstep hreset a hne
  rcases step_output hstep with ⟨hbuf, _⟩ | ⟨hop, _, hbuf, _⟩ | ⟨he, _⟩
  · exact absurd (by rw [hbuf]) hne
  · refine ⟨hop, ?_⟩
    by_contra ha
    exact hne (by rw [hbuf, Memory.read_write, if_neg ha])
  · exact absurd he hreset

/-- Settles O40: a clock of GENKS appends its own record, and nothing else changes the trace. -/
theorem traceGrowsByGenksClocksOnly : Obligations.TraceGrowsByGenksClocksOnly := by
  intro s t hstep
  rcases step_output hstep with ⟨_, htraced⟩ | ⟨hop, hlive, _, htraced⟩ | ⟨_, htraced⟩
  · exact .inl htraced
  · exact .inr ⟨hop, hlive, htraced⟩
  · exact .inl htraced

end Sys2Proof.Machine
end

section
/-!
A command that fails its acceptance check leaves everything but the command status (O8, R304).
-/
namespace Sys2Proof.Machine

/-- A command's rule completes with OK, starts a run and leaves ERR alone, or only completes (R124, R304). -/
theorem ruleOf_err_cases (i : Instr) (s : State) :
    (ruleOf i s).err = .ok ∨ (ruleOf i s).err = s.err ∨ ruleOf i s = complete (ruleOf i s).err s := by
  cases i with
  | nop => exact .inl rfl
  | load =>
    rw [ruleOf, loadRule]
    split
    · exact .inl rfl
    · exact .inr (.inr rfl)
  | shift =>
    rw [ruleOf, shiftRule]
    split
    · exact .inl rfl
    · exact .inr (.inr rfl)
  | check =>
    rw [ruleOf, checkRule]
    split
    · exact .inr (.inl rfl)
    · exact .inr (.inr rfl)
  | search =>
    rw [ruleOf, searchRule]
    split
    · exact .inr (.inl rfl)
    · exact .inr (.inr rfl)
  | genks =>
    rw [ruleOf, genksRule]
    split
    · exact .inr (.inl rfl)
    · exact .inr (.inr rfl)
  | cancel => exact .inl rfl

/-- Acceptance clears ERR (R121), so a code other than OK is that of a rule that only completed. -/
theorem ruleOf_accept_of_err_ne_ok {i : Instr} {s : State} (h : (ruleOf i (accept s)).err ≠ .ok) :
    ruleOf i (accept s) = complete (ruleOf i (accept s)).err (accept s) := by
  rcases ruleOf_err_cases i (accept s) with hok | hkept | hcomplete
  · exact absurd hok h
  · exact absurd hkept h
  · exact hcomplete

/-- Settles O8: InvalidConfig and NotLoaded are not OK, so the command's rule only completed on the cleared status. -/
theorem failedCommandChangesOnlyStatus : Obligations.FailedCommandChangesOnlyStatus := by
  intro i s t hop e hfail
  rw [exec_idle i s hop] at e
  cases e
  have hne : (ruleOf i (accept s)).err ≠ .ok := by
    rcases hfail with herr | herr <;> simp [herr]
  rw [← complete_accept_of_idle hop]
  exact ruleOf_accept_of_err_ne_ok hne

end Sys2Proof.Machine
end

section
/-!
What a step can do to one element of the state. The command status and the host's side change in many ways; every other
element changes only with a busy step, at reset, or by the rule of the command written to CMD.
-/
namespace Sys2Proof.Machine

/-- `f` reads neither the command status (R24, R25) nor the host's side of the port (R29, R79). -/
def IgnoresStatus {α : Type} (f : State → α) : Prop :=
  ∀ (s : State) (op : Op) (doneBit : Bool) (err : ErrCode) (rejected : Bool) (conf : ConfigRegs)
    (events : List Event) (reads : List (Nat × Word)),
    f { s with op, doneBit, err, rejected, conf, events, reads } = f s

theorem ignoresStatus_ks : IgnoresStatus State.ks := fun _ _ _ _ _ _ _ _ => rfl

theorem ignoresStatus_loaded : IgnoresStatus State.loaded := fun _ _ _ _ _ _ _ _ => rfl

section

variable {α : Type} {f : State → α} {s t : State}

theorem IgnoresStatus.of_exec (hf : IgnoresStatus f) {i : Instr} (e : exec i s = .next t) :
    f t = f s ∨ f t = f (ruleOf i (accept s)) := by
  rcases exec_cases e with rfl | rfl | rfl
  · exact .inr rfl
  · exact .inl (hf s ..)
  · exact .inl (hf s ..)

theorem IgnoresStatus.of_illegalCommand (hf : IgnoresStatus f) (e : illegalCommand s = .next t) :
    f t = f s := by
  by_cases hop : s.op = .idle
  · rw [illegalCommand_idle s hop] at e
    cases e
    exact hf s ..
  · rw [illegalCommand_busy s hop] at e
    cases e
    exact hf s ..

theorem IgnoresStatus.of_popEvent (hf : IgnoresStatus f) (s : State) : f (popEvent s) = f s := hf s ..

theorem IgnoresStatus.of_busyStep_popEvent (hf : IgnoresStatus f) (s : State) :
    f (busyStep (popEvent s)) = f (busyStep s) := by
  rw [popEvent, busyStep_events]
  exact hf (busyStep s) ..

/-- The four ways in which a step can leave such an element (R79, R120, R127, R400). -/
theorem IgnoresStatus.of_step (hf : IgnoresStatus f) (hstep : step s = .next t) :
    f t = f s ∨ f t = f (busyStep s) ∨
    (s.events.head? = some .reset ∧ f t = f (resetEvent (popEvent s))) ∨
    ∃ w i rest, s.events = wr .CMD w :: rest ∧ decode w = .command i ∧
      f t = f (ruleOf i (accept (popEvent s))) := by
  rcases step_cases s t hstep with ⟨_, rfl⟩ | ⟨_, _, rfl⟩ | ⟨_, _, rfl⟩ | ⟨_, he, rfl⟩ |
    ⟨_, _, _, rfl⟩ | ⟨_, _, _, _, _, rfl⟩ | ⟨w, i, rest, he, hd, e⟩ | ⟨_, _, _, _, _, e⟩
  · exact .inr (.inl rfl)
  · exact .inr (.inl (hf.of_busyStep_popEvent s))
  · by_cases hop : s.op = .idle
    · rw [waitStep_idle hop]
      exact .inl (hf.of_popEvent s)
    · rw [waitStep_busy hop]
      exact .inr (.inl rfl)
  · exact .inr (.inr (.inl ⟨by rw [he, List.head?_cons], rfl⟩))
  · exact .inl (hf s ..)
  · rw [hostWrite_eq]
    exact .inl (hf s ..)
  · rcases hf.of_exec e with hkept | hrule
    · exact .inl (hkept.trans (hf.of_popEvent s))
    · exact .inr (.inr (.inr ⟨w, i, rest, he, hd, hrule⟩))
  · exact .inl ((hf.of_illegalCommand e).trans (hf.of_popEvent s))

end

/-- Only GENKS writes the keystream (R200), and only LOAD writes LOADED (R22). -/
theorem ruleOf_ks_loaded (i : Instr) (s : State) :
    (i ≠ .genks → (ruleOf i s).ks = s.ks) ∧ (i ≠ .load → (ruleOf i s).loaded = s.loaded) := by
  cases i with
  | nop => exact ⟨fun _ => rfl, fun _ => rfl⟩
  | load =>
    refine ⟨fun _ => ?_, fun h => absurd rfl h⟩
    rw [ruleOf, loadRule]
    split <;> rfl
  | shift =>
    rw [ruleOf, shiftRule]
    split <;> exact ⟨fun _ => rfl, fun _ => rfl⟩
  | check =>
    rw [ruleOf, checkRule]
    split <;> exact ⟨fun _ => rfl, fun _ => rfl⟩
  | search =>
    rw [ruleOf, searchRule]
    split <;> exact ⟨fun _ => rfl, fun _ => rfl⟩
  | genks =>
    refine ⟨fun h => absurd rfl h, fun _ => ?_⟩
    rw [ruleOf, genksRule]
    split <;> rfl
  | cancel => exact ⟨fun _ => rfl, fun _ => rfl⟩

end Sys2Proof.Machine
end

section
/-!
Reset and the hazards (O11, O41, O52, O53, O57; R400 to R408).
-/
namespace Sys2Proof.Machine

/-! ## Reset (R400, R401) -/

/-- Settles O52: the reset event writes the reset state over everything but the trace and the host's side. -/
theorem resetAbandonsEverything : Obligations.ResetAbandonsEverything := by
  intro s rest h
  refine ⟨_, step_reset s rest h, ?_⟩
  rw [popEvent_eq s _ rest h]
  rfl

/-- LOAD, CHECK and SEARCH each check WIDTH, and 0 is below every legal width (R130). -/
theorem exec_of_width_zero {i : Instr} {s : State} (hop : s.op = .idle) (hwidth : s.conf.width = 0#32)
    (hi : i = .load ∨ i = .check ∨ i = .search) :
    exec i s = .next { s with doneBit := true, err := .invalidConfig, rejected := false } := by
  have hlow : ¬ 2 ≤ s.conf.width.toNat := by simp [hwidth]
  rcases hi with rfl | rfl | rfl
  · obtain ⟨_, hinvalid⟩ := loadBuildsTheLiveEngine.2 s hop
    exact hinvalid fun ⟨hvalid, _⟩ => hlow hvalid
  · exact exec_check_invalid hop fun h => hlow ((checkOperandsValid_iff s).1 h).1
  · exact exec_search_invalid hop fun h => hlow ((validWidth_iff s).1 h).1

theorem step_sets_loaded {s t : State} (hstep : step s = .next t) (hs : s.loaded = false)
    (ht : t.loaded = true) : ∃ w rest, s.events = wr .CMD w :: rest ∧ decode w = .command .load := by
  rcases ignoresStatus_loaded.of_step hstep with e | e | ⟨_, e⟩ | ⟨w, i, rest, he, hd, e⟩
  · simp [e, hs] at ht
  · obtain ⟨_, hloaded, _⟩ := busyStep_frame s
    simp [e, hloaded, hs] at ht
  · simp [e] at ht
  · refine ⟨w, rest, he, ?_⟩
    by_cases hi : i = .load
    · rw [hd, hi]
    · simp [e, (ruleOf_ks_loaded i _).2 hi, hs] at ht

/-- Settles O53: the reset state has no event and no command, and each failing command has failed its own check. -/
theorem afterResetOnlyConfigurationHelps : Obligations.AfterResetOnlyConfigurationHelps := by
  refine ⟨?_, fun i s hop hloaded hi => ?_, fun _ _ => exec_of_width_zero, fun _ _ => step_sets_loaded⟩
  · rw [step_none State.reset rfl, busyStep_idle State.reset rfl]
  · rcases hi with rfl | rfl
    · obtain ⟨_, hunloaded, _⟩ := shiftClocksTheLiveEngine.2 s
      exact hunloaded hop hloaded
    · exact exec_genks_unloaded hop hloaded

/-! ## What the host reads while a command runs (R404, R407) -/

/-- Settles O57: the invariant clears the running command's results, and STATUS shows them field by field. -/
theorem resultsReadAsClearedWhileBusy : Obligations.ResultsReadAsClearedWhileBusy := by
  intro s hinv
  obtain ⟨hrunning, hcheck, hsearch, hgenks⟩ := hinv.status
  obtain ⟨hbusy, hdone, _, _, herr, _, hprimitive, hverified, hfallback, _⟩ :=
    statusFields.1 s (hostRead s 0x04) rfl
  refine ⟨fun hop => ?_, fun hop => hprimitive.trans (hcheck hop), fun hop => ?_,
    fun hop => (hgenks hop).2⟩
  · obtain ⟨hdoneBit, hok⟩ := hrunning hop
    exact ⟨hbusy.trans (decide_eq_true hop), hdone.trans hdoneBit,
      herr.trans (congrArg ErrCode.bits hok)⟩
  · obtain ⟨hprim, htaps, hver, hfall⟩ := hsearch hop
    exact ⟨hprimitive.trans hprim, hverified.trans hver, hfallback.trans hfall, htaps⟩

/-- Outside GENKS and reset, only the rule of an accepted GENKS could write the keystream. -/
theorem step_keeps_ks {s t : State} (hstep : step s = .next t) (hop : s.op ≠ .genks)
    (hreset : s.events.head? ≠ some .reset)
    (hgenks : ∀ w rest, s.events = wr .CMD w :: rest → decode w ≠ .command .genks) :
    t.ks = s.ks := by
  rcases ignoresStatus_ks.of_step hstep with e | e | ⟨he, _⟩ | ⟨w, i, rest, he, hd, e⟩
  · exact e
  · obtain ⟨_, _, _, _, _, hframe, _⟩ := busyStep_frame s
    obtain ⟨_, _, _, hks, _⟩ := hframe hop
    exact e.trans hks
  · exact absurd he hreset
  · have hi : i ≠ .genks := fun hi => hgenks w rest he (hi ▸ hd)
    exact e.trans ((ruleOf_ks_loaded i _).1 hi)

/-- Settles O41: KSLEN is 0 while GENKS runs, so no KSADDR lies below it. -/
theorem keystreamStaysReadable : Obligations.KeystreamStaysReadable := by
  refine ⟨fun _ _ => step_keeps_ks, fun s hinv hop => ?_⟩
  obtain ⟨_, hlen⟩ := hinv.status.genks hop
  obtain ⟨_, habove, _⟩ := ksdataReadsBelowKslen s
  exact ⟨hlen, habove (by simp [hlen])⟩

/-! ## A CANCEL against the completing busy step (R307, R408) -/

/-- Settles O11: the later of the two events meets an idle block, where a turn does nothing and a CANCEL only completes. -/
theorem cancelRaceBothOrders : Obligations.CancelRaceBothOrders := by
  intro s rest hop hends
  refine ⟨fun h => ?_, fun h => ?_⟩
  · refine ⟨_, (step_wr_command h (decode_encode .cancel)).trans (exec_cancel_busy _ hop), ?_⟩
    rw [step_busy _ rest rfl, busyStep_idle _ rfl]
    rfl
  · refine ⟨{ busyStep s with events := cmd .cancel :: rest }, ?_, ?_⟩
    · rw [step_busy s _ h, popEvent_eq s _ _ h, busyStep_events]
      rfl
    · obtain ⟨hcancel, _⟩ := cancelEndsTheRunningCommand.2 { busyStep s with events := rest }
      exact (step_wr_command rfl (decode_encode .cancel)).trans (hcancel hends)

end Sys2Proof.Machine
end
